-- ==== Sys2Proof/Word.lean ====
section
/-! DEFINITION. The word types of CORE (spec/00_scope.md R6, R9): 32-bit words, bytes, 20-bit addresses, 5-bit register indices. -/

namespace Sys2Proof

/-- A register value, memory word, instruction word or immediate (R6, R9). -/
abbrev Word := BitVec 32

/-- One byte of memory (10_state.md R34). -/
abbrev Byte := BitVec 8

/-- A program-counter value: a byte address in the 20-bit address space (10_state.md R27). -/
abbrev Addr := BitVec 20

/-- A register index as an instruction holds it, 0 to 31 (10_state.md R21). -/
abbrev RegIdx := BitVec 5

end Sys2Proof
end

