-- ==== Sys2Proof/Syntax.lean ====
section
/-! DEFINITION. The CPU Instruction type: one constructor per row of spec/opcode_table.json, with the payload of spec/30_encoding.md R82. -/

namespace Sys2Proof

/-- The encoding kinds: each names an immediate layout (00_scope.md R12, 30_encoding.md R70). U belongs to the codec only (R74). -/
inductive ImmKind where
  | I
  | S
  | B
  | U
  | J
  deriving DecidableEq, Repr

/-- The eight variants (00_scope.md R2), each with "the minimal operand set" (R82): 5-bit register indices and a 32-bit
sign-extended immediate. -/
inductive Instr where
  | add (rd rs1 rs2 : RegIdx)
  | sub (rd rs1 rs2 : RegIdx)
  | lw (rd rs1 : RegIdx) (imm : Word)
  | sw (rs1 rs2 : RegIdx) (imm : Word)
  | jal (rd : RegIdx) (imm : Word)
  | jalr (rd rs1 : RegIdx) (imm : Word)
  | beq (rs1 rs2 : RegIdx) (imm : Word)
  | bne (rs1 rs2 : RegIdx) (imm : Word)
  deriving DecidableEq, Repr

/-- The register an instruction writes, if its variant has an rd (10_state.md R25). -/
def Instr.dest? : Instr → Option RegIdx
  | .add rd _ _ => some rd
  | .sub rd _ _ => some rd
  | .lw rd _ _ => some rd
  | .sw _ _ _ => none
  | .jal rd _ => some rd
  | .jalr rd _ _ => some rd
  | .beq _ _ _ => none
  | .bne _ _ _ => none

/-- The registers an instruction reads (10_state.md R25). -/
def Instr.sources : Instr → List RegIdx
  | .add _ rs1 rs2 => [rs1, rs2]
  | .sub _ rs1 rs2 => [rs1, rs2]
  | .lw _ rs1 _ => [rs1]
  | .sw rs1 rs2 _ => [rs1, rs2]
  | .jal _ _ => []
  | .jalr _ rs1 _ => [rs1]
  | .beq rs1 rs2 _ => [rs1, rs2]
  | .bne rs1 rs2 _ => [rs1, rs2]

end Sys2Proof
end

