-- ==== Sys2Proof/WellFormed.lean ====
section
/-! DEFINITION. Well-formed instructions (spec/30_encoding.md R78, R85): the immediate is representable by the variant's kind. Register indices are in range by their type. -/

namespace Sys2Proof

/-- Whether a kind can hold a 32-bit value, by the table of R78 on its signed reading. -/
def representable : ImmKind → Word → Bool
  | .I, v => decide (-2048 ≤ v.toInt) && decide (v.toInt ≤ 2047)
  | .S, v => decide (-2048 ≤ v.toInt) && decide (v.toInt ≤ 2047)
  | .B, v => decide (-4096 ≤ v.toInt) && decide (v.toInt ≤ 4094) && !v.getLsbD 0
  | .U, v => v.extractLsb' 0 12 == 0
  | .J, v => decide (-1048576 ≤ v.toInt) && decide (v.toInt ≤ 1048574) && !v.getLsbD 0

/-- A CPU Instruction the model admits (R85): I for LW and JALR, S for SW, B for BEQ and BNE, J for JAL. -/
def Instr.wf : Instr → Bool
  | .add _ _ _ => true
  | .sub _ _ _ => true
  | .lw _ _ imm => representable .I imm
  | .sw _ _ imm => representable .S imm
  | .jal _ imm => representable .J imm
  | .jalr _ _ imm => representable .I imm
  | .beq _ _ imm => representable .B imm
  | .bne _ _ imm => representable .B imm

end Sys2Proof
end

