-- ==== Sys2Proof/Decode.lean ====
section
/-! DEFINITION. The codec (spec/30_encoding.md): byte order of a stored word, base fields, immediates, the decoder, the encoder and the opcode map. Every function here is pure and total (R92). -/

namespace Sys2Proof

/-! Byte order: the byte at the lowest address is the most significant (20_memory.md R41, R42, R43). -/

/-- Four bytes in address order, assembled big-endian (20_memory.md R41). -/
def wordOfBytes (b0 b1 b2 b3 : Byte) : Word := b0 ++ b1 ++ b2 ++ b3

/-- Byte k of a word in address order, k from 0 to 3: byte 0 is w[31:24] (20_memory.md R42). -/
def byteOfWord (w : Word) (k : Nat) : Byte := w.extractLsb' (24 - 8 * k) 8

/-- The bytes of a word as memory stores them, lowest address first. -/
def wordBytes (w : Word) : List Byte := [byteOfWord w 0, byteOfWord w 1, byteOfWord w 2, byteOfWord w 3]

/-! Base fields (R61, R62, R63). -/

/-- Bits lo to lo + len - 1 of a word, as a value of width len (R62). -/
def bits (w : Word) (lo len : Nat) : BitVec len := w.extractLsb' lo len

/-- The ones of a field at lo of width len (R63). -/
def fieldMask (lo len : Nat) : Word := (BitVec.allOnes len).setWidth 32 <<< lo

/-- Clears the field at lo and ORs in the new value shifted into place (R63). -/
def withBits {len : Nat} (w : Word) (lo : Nat) (v : BitVec len) : Word :=
  (w &&& ~~~(fieldMask lo len)) ||| (v.setWidth 32 <<< lo)

def opcode (w : Word) : BitVec 7 := bits w 0 7
def rd (w : Word) : RegIdx := bits w 7 5
def funct3 (w : Word) : BitVec 3 := bits w 12 3
def rs1 (w : Word) : RegIdx := bits w 15 5
def rs2 (w : Word) : RegIdx := bits w 20 5
def funct7 (w : Word) : BitVec 7 := bits w 25 7

def withOpcode (w : Word) (v : BitVec 7) : Word := withBits w 0 v
def withRd (w : Word) (v : RegIdx) : Word := withBits w 7 v
def withFunct3 (w : Word) (v : BitVec 3) : Word := withBits w 12 v
def withRs1 (w : Word) (v : RegIdx) : Word := withBits w 15 v
def withRs2 (w : Word) (v : RegIdx) : Word := withBits w 20 v
def withFunct7 (w : Word) (v : BitVec 7) : Word := withBits w 25 v

/-- The six base fields of R61 as (low bit, width). -/
def baseFields : List (Nat × Nat) := [(0, 7), (7, 5), (12, 3), (15, 5), (20, 5), (25, 7)]

/-! Immediates (R70 to R80). -/

/-- The immediate of a kind, assembled from the groups and sign-extended from G31 (R71 to R76). The placement is from general
knowledge in the spec itself (GK1). PRESUMED, unsafe (log 9). -/
def immediate (w : Word) : ImmKind → Word
  | .I => (bits w 31 1 ++ bits w 25 6 ++ bits w 21 4 ++ bits w 20 1).signExtend 32
  | .S => (bits w 31 1 ++ bits w 25 6 ++ bits w 8 4 ++ bits w 7 1).signExtend 32
  | .B => (bits w 31 1 ++ bits w 7 1 ++ bits w 25 6 ++ bits w 8 4 ++ (0 : BitVec 1)).signExtend 32
  | .U => bits w 31 1 ++ bits w 25 6 ++ bits w 21 4 ++ bits w 20 1 ++ bits w 12 8 ++ (0 : BitVec 12)
  | .J => (bits w 31 1 ++ bits w 12 8 ++ bits w 20 1 ++ bits w 25 6 ++ bits w 21 4 ++ (0 : BitVec 1)).signExtend 32

/-- Stores the bits of v into the groups of a kind and leaves every other bit of w (R77). PRESUMED placement, unsafe (log 9). -/
def withImmediate (w v : Word) : ImmKind → Word
  | .I => withBits (withBits (withBits (withBits w 31 (bits v 11 1)) 25 (bits v 5 6)) 21 (bits v 1 4)) 20 (bits v 0 1)
  | .S => withBits (withBits (withBits (withBits w 31 (bits v 11 1)) 25 (bits v 5 6)) 8 (bits v 1 4)) 7 (bits v 0 1)
  | .B => withBits (withBits (withBits (withBits w 31 (bits v 12 1)) 25 (bits v 5 6)) 8 (bits v 1 4)) 7 (bits v 11 1)
  | .U => withBits (withBits (withBits (withBits (withBits w 31 (bits v 31 1)) 25 (bits v 25 6)) 21 (bits v 21 4)) 20 (bits v 20 1)) 12 (bits v 12 8)
  | .J => withBits (withBits (withBits (withBits (withBits w 31 (bits v 20 1)) 25 (bits v 5 6)) 21 (bits v 1 4)) 20 (bits v 11 1)) 12 (bits v 12 8)

/-- Whether bit n of the instruction word belongs to a group of the kind (R80). -/
def ownsBit : ImmKind → Nat → Bool
  | .I, n => decide (20 ≤ n ∧ n < 32)
  | .S, n => decide (25 ≤ n ∧ n < 32) || decide (7 ≤ n ∧ n < 12)
  | .B, n => decide (25 ≤ n ∧ n < 32) || decide (7 ≤ n ∧ n < 12)
  | .U, n => decide (12 ≤ n ∧ n < 32)
  | .J, n => decide (12 ≤ n ∧ n < 32)

/-! Decoder (R81, R82, R83). -/

/-- Why bytes are no instruction. -/
inductive DecodeError where
  /-- The word matches no row of the opcode map (R83). -/
  | invalidInstruction (w : Word)
  /-- Fewer than four bytes were given; no fetch of CORE does this (R60, R89). -/
  | truncated (given : List Byte)
  deriving DecidableEq, Repr

/-- The walk of R81, with the operands of R82. -/
def decode (w : Word) : Except DecodeError Instr :=
  if opcode w = 0b0110011#7 then
    if funct3 w = 0b000#3 ∧ funct7 w = 0b0000000#7 then .ok (.add (rd w) (rs1 w) (rs2 w))
    else if funct3 w = 0b000#3 ∧ funct7 w = 0b0100000#7 then .ok (.sub (rd w) (rs1 w) (rs2 w))
    else .error (.invalidInstruction w)
  else if opcode w = 0b0000011#7 then
    if funct3 w = 0b010#3 then .ok (.lw (rd w) (rs1 w) (immediate w .I)) else .error (.invalidInstruction w)
  else if opcode w = 0b0100011#7 then
    if funct3 w = 0b010#3 then .ok (.sw (rs1 w) (rs2 w) (immediate w .S)) else .error (.invalidInstruction w)
  else if opcode w = 0b1101111#7 then .ok (.jal (rd w) (immediate w .J))
  else if opcode w = 0b1100111#7 then
    if funct3 w = 0b000#3 then .ok (.jalr (rd w) (rs1 w) (immediate w .I)) else .error (.invalidInstruction w)
  else if opcode w = 0b1100011#7 then
    if funct3 w = 0b000#3 then .ok (.beq (rs1 w) (rs2 w) (immediate w .B))
    else if funct3 w = 0b001#3 then .ok (.bne (rs1 w) (rs2 w) (immediate w .B))
    else .error (.invalidInstruction w)
  else .error (.invalidInstruction w)

/-- The decoder on bytes in address order: one word big-endian (20_memory.md R43), and the bytes after it. -/
def decodeBytes : List Byte → Except DecodeError (Instr × List Byte)
  | b0 :: b1 :: b2 :: b3 :: rest =>
    match decode (wordOfBytes b0 b1 b2 b3) with
    | .ok i => .ok (i, rest)
    | .error e => .error e
  | given => .error (.truncated given)

/-! Encoder (R84, R85). -/

/-- Why an instruction is no CPU Instruction. -/
inductive EncodeError where
  /-- Its variant's kind cannot represent its immediate (R78, R85). -/
  | unrepresentableImmediate (i : Instr)
  deriving DecidableEq, Repr

/-- A CPU Instruction as a caller builds it: refused at construction where it is not well-formed (R85, decision D16, log 8). -/
def construct (i : Instr) : Except EncodeError Instr :=
  if i.wf then .ok i else .error (.unrepresentableImmediate i)

/-- The opcode, funct3 and funct7 constants and the operands, written from the word 0 by the mutators: the equations of R84. On its
own it would drop bits of an immediate its kind cannot represent, as the raw codec does (R79); encode keeps such an instruction
from it. -/
def encodeBits : Instr → Word
  | .add d a b => withFunct7 (withRs2 (withRs1 (withFunct3 (withRd (withOpcode 0 0b0110011) d) 0b000) a) b) 0b0000000
  | .sub d a b => withFunct7 (withRs2 (withRs1 (withFunct3 (withRd (withOpcode 0 0b0110011) d) 0b000) a) b) 0b0100000
  | .lw d a imm => withImmediate (withRs1 (withFunct3 (withRd (withOpcode 0 0b0000011) d) 0b010) a) imm .I
  | .sw a b imm => withImmediate (withRs2 (withRs1 (withFunct3 (withOpcode 0 0b0100011) 0b010) a) b) imm .S
  | .jal d imm => withImmediate (withRd (withOpcode 0 0b1101111) d) imm .J
  | .jalr d a imm => withImmediate (withRs1 (withFunct3 (withRd (withOpcode 0 0b1100111) d) 0b000) a) imm .I
  | .beq a b imm => withImmediate (withRs2 (withRs1 (withFunct3 (withOpcode 0 0b1100011) 0b000) a) b) imm .B
  | .bne a b imm => withImmediate (withRs2 (withRs1 (withFunct3 (withOpcode 0 0b1100011) 0b001) a) b) imm .B

/-- encode(i): the word of a constructed instruction (R84); one that construction refuses is not encoded (R85, and R79's last
sentences; decision D16, log 8). -/
def encode (i : Instr) : Except EncodeError Word :=
  match construct i with
  | .ok j => .ok (encodeBits j)
  | .error e => .error e

/-! Opcode map (R87). -/

/-- The bits a row of R87 fixes. -/
def Instr.maskBits : Instr → Word
  | .add _ _ _ => 0xFE00707F
  | .sub _ _ _ => 0xFE00707F
  | .lw _ _ _ => 0x0000707F
  | .sw _ _ _ => 0x0000707F
  | .jal _ _ => 0x0000007F
  | .jalr _ _ _ => 0x0000707F
  | .beq _ _ _ => 0x0000707F
  | .bne _ _ _ => 0x0000707F

/-- What those bits are (R87). -/
def Instr.matchBits : Instr → Word
  | .add _ _ _ => 0x00000033
  | .sub _ _ _ => 0x40000033
  | .lw _ _ _ => 0x00002003
  | .sw _ _ _ => 0x00002023
  | .jal _ _ => 0x0000006F
  | .jalr _ _ _ => 0x00000067
  | .beq _ _ _ => 0x00000063
  | .bne _ _ _ => 0x00001063

/-- The rows of R87 as (match, mask), in the table's order. -/
def opcodeRows : List (Word × Word) :=
  [(0x00000033, 0xFE00707F), (0x40000033, 0xFE00707F), (0x00002003, 0x0000707F), (0x00002023, 0x0000707F),
   (0x0000006F, 0x0000007F), (0x00000067, 0x0000707F), (0x00000063, 0x0000707F), (0x00001063, 0x0000707F)]

/-- The instruction the decoder reads from a word numbered as spec/opcode_table.json numbers it: laid out as memory stores it and
given to decodeBytes. Bits above nbits are 0. -/
def decodeTableWord (nbits w : Nat) : Option Instr :=
  match decodeBytes (wordBytes (BitVec.ofNat 32 (w % 2 ^ nbits))) with
  | .ok (i, _) => some i
  | .error _ => none

end Sys2Proof
end

