-- ==== Sys2Proof/Config.lean ====
section
/-! DEFINITION. The parameters the model takes (spec/00_scope.md R7). CORE leaves no result of an instruction undefined, so there is no free value here; what a launch leaves open (REG_INIT, PC_INIT) is a field of Launch. -/

namespace Sys2Proof

/-- ARITH_MODE (R7, 41_alu.md R144): how ADD and SUB treat overflow. -/
inductive ArithMode where
  | saturating
  | wrapping
  deriving DecidableEq, Repr

/-- JALR_ORDER (R7, 43_control_flow.md R163): whether JALR writes the link before it reads rs1. -/
inductive JalrOrder where
  | linkFirst
  | readFirst
  deriving DecidableEq, Repr

/-- MISALIGNED (R7, 20_memory.md R47): a 4-byte access at an address that is no multiple of 4. -/
inductive MisalignedMode where
  | bytewise
  | fault
  deriving DecidableEq, Repr

/-- PC_OVERFLOW (R7, 40_cycle.md R116): a sequential or branch pc that leaves the address space. -/
inductive PcOverflow where
  | wrap
  | fault
  deriving DecidableEq, Repr

/-- The parameters that stay fixed while the machine runs (R7). -/
structure Params where
  /-- MEM_SIZE: how many bytes of memory exist. -/
  memSize : Nat
  arithMode : ArithMode
  jalrOrder : JalrOrder
  misaligned : MisalignedMode
  pcOverflow : PcOverflow
  deriving DecidableEq, Repr

/-- The defaults of R7. -/
def Params.default : Params where
  memSize := 1048576
  arithMode := .saturating
  jalrOrder := .linkFirst
  misaligned := .bytewise
  pcOverflow := .wrap

/-- The range R7 gives MEM_SIZE. -/
abbrev Params.wf (p : Params) : Prop := 4 ≤ p.memSize ∧ p.memSize ≤ 1048576

/-- Everything a construction of the machine is given (R7, 70_reset_and_hazards.md R200). Entry i of regInit is REG_INIT(i);
entry 0 is discarded, since x0 is hardwired (10_state.md R23, R37). -/
structure Launch where
  params : Params
  regInit : Vector Word 32
  pcInit : Addr
  deriving DecidableEq, Repr

/-- The launch State.reset uses: the defaults of R7, every register 0 and pc 0. DESIGN CHOICE, unsafe (log 1, log 2): the spec
gives no value for REG_INIT or PC_INIT, so no statement rests on these zeros. -/
def Launch.default : Launch where
  params := Params.default
  regInit := Vector.replicate 32 0
  pcInit := 0

end Sys2Proof
end

