-- ==== Sys2Proof/Machine/State.lean ====
section
/-! DEFINITION. The machine state { X, MEM, pc } of spec/10_state.md R20 with the model's bookkeeping, the error kinds of spec/60_exceptions.md R181, the fault and refusal reasons, and the state after reset. -/

namespace Sys2Proof.Machine

/-- Memory as cells of strictly rising address, listing no byte equal to what an unlisted address reads as, which is 0
(10_state.md R36). Memory.wf in Ops.lean states the form. -/
abbrev Memory := List Host.Cell

/-- Which access a memory fault is about (20_memory.md R46). -/
inductive AccessKind where
  | fetch
  | load
  | store
  deriving DecidableEq, Repr

/-- The error kinds of 60_exceptions.md R181, with what each records. -/
inductive MachineError where
  /-- Raised by the decode phase of a tick: the fetched word matches no row of the opcode map (R182). Safe: the spec's own outcome. -/
  | invalidInstruction (w : Word)
  /-- Raised by JALR: the candidate target is 2^20 or more (R183). Safe: the spec's own outcome. -/
  | addressRangeError (candidate : Word)
  /-- Raised by fetch, LW and SW: the word is not wholly inside memory (R184). Safe: the source leaves the access undefined and the
  spec stops it. -/
  | memoryRangeFault (kind : AccessKind) (a : Word)
  /-- Raised by fetch, LW and SW under MISALIGNED = fault (R185). Safe: only a launch that asks for it. -/
  | misalignedFault (kind : AccessKind) (a : Word)
  /-- Raised by the sequential advance and taken branches under PC_OVERFLOW = fault (R186). Safe: only a launch that asks for it. -/
  | pcRangeFault (t : Word)
  deriving DecidableEq, Repr

/-- The state of CORE (10_state.md R20). -/
structure State where
  /-- The register file X (R21); x0 is read and written through State.readReg and State.writeReg only (R23, R24). -/
  x : Vector Word 32
  /-- The program counter (R27). -/
  pc : Addr
  /-- MEM (R34). -/
  mem : Memory
  /-- The parameters of 00_scope.md R7, which no step changes. DESIGN CHOICE, safe (log 3): carried here because exec takes no
  other argument. -/
  params : Params
  /-- The fault record of 60_exceptions.md R189: the first error, never cleared. The model's bookkeeping. -/
  faultRecord : Option MachineError
  /-- Whether a tick has run: load_memory is admitted only before it (40_cycle.md R124). The model's bookkeeping. DESIGN CHOICE,
  safe (log 6). -/
  started : Bool
  deriving DecidableEq, Repr

/-- A tick that ends with an error (00_scope.md R11). -/
inductive Fault where
  /-- Err(E) together with the state as the rules leave it (R11, 40_cycle.md R118). Raised through raise in Ops.lean by fetch, decode
  and every instruction that has an error of its own; MachineError's constructors say which. Safe: the state after is kept, so
  nothing the error leaves behind is lost (log 4). -/
  | err (e : MachineError) (after : State)
  deriving DecidableEq, Repr

/-- An input the model gives no meaning (00_scope.md R11). -/
inductive Refusal where
  /-- An arm of exec whose instruction has no meaning yet. Safe. -/
  | notModelled (mnemonic : String)
  /-- exec of a caller-built instruction whose immediate its kind cannot represent (30_encoding.md R85). Safe: no word decodes to
  one. -/
  | unrepresentableImmediate
  /-- load_memory after the first tick (40_cycle.md R124). Safe. -/
  | loadAfterStart
  /-- load_memory of an image longer than MEM_SIZE. DESIGN CHOICE, safe (log 11). -/
  | imageTooLong
  deriving DecidableEq, Repr

/-- The machine a construction with these launch parameters gives (70_reset_and_hazards.md R200). -/
def State.launch (l : Launch) : State where
  x := l.regInit.set 0 0#32
  pc := l.pcInit
  mem := []
  params := l.params
  faultRecord := none
  started := false

/-- The launch with the parameters' defaults, every register 0 and pc 0. DESIGN CHOICE, unsafe (log 1, log 2): REG_INIT and PC_INIT
are open in the spec; State.launch takes them all. -/
def State.reset : State := State.launch Launch.default

end Sys2Proof.Machine
end

