-- ==== Sys2Proof/Machine/Ops.lean ====
section
/-! DEFINITION. The named operations over registers and memory, ending a tick with an error, and the fetch and decode phases. CORE has no trap entry and no trap return (spec/60_exceptions.md R180, R189): raise is the one operation every error goes through. -/

namespace Sys2Proof.Machine

/-! Registers (10_state.md R23, R24). -/

/-- x[i]: 0 for i = 0, else the value last written (R23). -/
def State.readReg (s : State) (i : RegIdx) : Word :=
  if i = 0#5 then 0#32 else s.x[i.toNat]'(by have := i.isLt; omega)

/-- x[i] <- v: dropped silently for i = 0 (R24). -/
def State.writeReg (s : State) (i : RegIdx) (v : Word) : State :=
  if i = 0#5 then s else { s with x := s.x.set i.toNat v (by have := i.isLt; omega) }

/-- pc <- t (00_scope.md R10). -/
def State.setPc (s : State) (t : Addr) : State := { s with pc := t }

/-- The state with another memory. -/
def State.setMem (s : State) (m : Memory) : State := { s with mem := m }

/-! Memory (20_memory.md R41, R42). -/

/-- The canonical form: addresses strictly rising, no listed byte 0. -/
abbrev Memory.wf (m : Memory) : Prop := m.Pairwise (fun c d => c.1 < d.1) ∧ ∀ c ∈ m, c.2 ≠ 0#8

/-- Every listed address is below n. -/
abbrev Memory.below (m : Memory) (n : Nat) : Prop := ∀ c ∈ m, c.1 < n

/-- One byte; an unlisted address reads as 0, the reset contents (10_state.md R36). -/
def Memory.read (m : Memory) (a : Nat) : Byte :=
  match m with
  | [] => 0#8
  | (k, v) :: rest => if k = a then v else Memory.read rest a

/-- MEM[a] <- b, keeping the canonical form: writing 0 removes the entry. -/
def Memory.write (m : Memory) (a : Nat) (b : Byte) : Memory :=
  match m with
  | [] => if b = 0#8 then [] else [(a, b)]
  | (k, v) :: rest =>
    if a < k then (if b = 0#8 then (k, v) :: rest else (a, b) :: (k, v) :: rest)
    else if a = k then (if b = 0#8 then rest else (a, b) :: rest)
    else (k, v) :: Memory.write rest a b

/-- MemRead(a, 4), big-endian (R41). -/
def Memory.readWord (m : Memory) (a : Nat) : Word :=
  wordOfBytes (Memory.read m a) (Memory.read m (a + 1)) (Memory.read m (a + 2)) (Memory.read m (a + 3))

/-- MemWrite(a, 4, v), big-endian (R42). -/
def Memory.writeWord (m : Memory) (a : Nat) (v : Word) : Memory :=
  Memory.write (Memory.write (Memory.write (Memory.write m a (byteOfWord v 0)) (a + 1) (byteOfWord v 1))
    (a + 2) (byteOfWord v 2)) (a + 3) (byteOfWord v 3)

/-- The memory that holds an image from address a on and 0 elsewhere (40_cycle.md R124). -/
def Memory.ofBytes (a : Nat) : List Byte → Memory
  | [] => []
  | b :: rest => if b = 0#8 then Memory.ofBytes (a + 1) rest else (a, b) :: Memory.ofBytes (a + 1) rest

/-! Ending a tick with an error (60_exceptions.md R180, R187, R189). -/

/-- The fault record keeps the first error (R189). -/
def State.recordError (s : State) (e : MachineError) : State :=
  { s with faultRecord := some (s.faultRecord.getD e) }

/-- raise E: the tick ends with Err(E) and the state as it stands, its fault record set (00_scope.md R10, R11). -/
def raise (e : MachineError) (s : State) : Host.Outcome State Fault Refusal := .fault (.err e (s.recordError e))

/-- Goes on with the value of a check, or raises its error on state s (00_scope.md R10: a statement after a raise does not run). -/
def proceed {α : Type} (r : Except MachineError α) (s : State) (k : α → Host.Outcome State Fault Refusal) :
    Host.Outcome State Fault Refusal :=
  match r with
  | .ok a => k a
  | .error e => raise e s

/-- Refuses an instruction whose immediate its kind cannot represent, at construction: before anything else (30_encoding.md R85,
decision D16). -/
def whenRepresentable (k : ImmKind) (imm : Word) (out : Host.Outcome State Fault Refusal) : Host.Outcome State Fault Refusal :=
  if representable k imm then out else .refused .unrepresentableImmediate

/-! Access checks (20_memory.md R46, R47). -/

/-- The 4-byte access at a lies wholly inside memory (R46), a unsigned, with no wrap-around. -/
def inRange (p : Params) (a : Word) : Bool := decide (a.toNat + 3 < p.memSize)

/-- Bounds, then alignment (R46 applies before R47). -/
def checkAccess (s : State) (kind : AccessKind) (a : Word) : Except MachineError Unit :=
  if ¬ inRange s.params a then .error (.memoryRangeFault kind a)
  else if s.params.misaligned = .fault ∧ a.toNat % 4 ≠ 0 then .error (.misalignedFault kind a)
  else .ok ()

/-! Fetch and decode (40_cycle.md R111, R112, R113). -/

/-- The word at pc, after its checks (R112). -/
def fetchWord (s : State) : Except MachineError Word :=
  match checkAccess s .fetch (s.pc.setWidth 32) with
  | .ok _ => .ok (Memory.readWord s.mem s.pc.toNat)
  | .error e => .error e

/-- Decodes a fetched word; InvalidInstruction records it (R113, 60_exceptions.md R182). -/
def decodeFetched (w : Word) : Except MachineError Instr :=
  match decode w with
  | .ok i => .ok i
  | .error _ => .error (.invalidInstruction w)

/-- The fetch and decode phases of a tick. -/
def fetchInstr (s : State) : Except MachineError Instr :=
  match fetchWord s with
  | .ok w => decodeFetched w
  | .error e => .error e

/-- A tick has begun (40_cycle.md R124). -/
def State.begin (s : State) : State := { s with started := true }

/-- Stores the low nbits of a word big-endian at pc, as a load of memory before the first tick would (20_memory.md R43). -/
def placeAtPc (s : State) (nbits w : Nat) : State :=
  s.setMem (Memory.writeWord s.mem s.pc.toNat (BitVec.ofNat 32 (w % 2 ^ nbits)))

end Sys2Proof.Machine
end

