-- ==== Sys2Proof/Machine/Flags.lean ====
section
/-! DEFINITION. CORE has no status flag and no instruction writes one (spec/10_state.md R31), so this file holds what other machines compute flags from: the clamping of ADD and SUB, which CORE reports nowhere (spec/41_alu.md R140 to R144). -/

namespace Sys2Proof.Machine

/-- The unsigned sum clamped to the largest 32-bit value (R140). -/
def saturatingAdd (a b : Word) : Word := if a.toNat + b.toNat > 0xFFFFFFFF then 0xFFFFFFFF#32 else a + b

/-- The unsigned difference clamped at 0 (R141). -/
def saturatingSub (a b : Word) : Word := if a.toNat < b.toNat then 0#32 else a - b

/-- ADD's result under ARITH_MODE (R142, R144). -/
def aluAdd (m : ArithMode) (a b : Word) : Word :=
  match m with
  | .saturating => saturatingAdd a b
  | .wrapping => a + b

/-- SUB's result under ARITH_MODE (R143, R144). -/
def aluSub (m : ArithMode) (a b : Word) : Word :=
  match m with
  | .saturating => saturatingSub a b
  | .wrapping => a - b

end Sys2Proof.Machine
end

