-- ==== Sys2Proof/Machine/Operands.lean ====
section
/-! DEFINITION. The addresses and targets instructions compute from their operands: the effective address, the sequential pc, the link, the pc-relative targets and the JALR candidate (spec/40_cycle.md R116, R117; spec/42_load_store.md R150; spec/43_control_flow.md R160, R162). -/

namespace Sys2Proof.Machine

/-- x[rs1] + imm, modulo 2^32, not narrowed (42_load_store.md R150). -/
def effectiveAddress (s : State) (base : RegIdx) (imm : Word) : Word := s.readReg base + imm

/-- zext_32(pc) + 4, 32 bits wide, not narrowed (40_cycle.md R117). -/
def linkValue (s : State) : Word := s.pc.setWidth 32 + 4#32

/-- A 32-bit value as the next pc of a sequential advance or a taken branch: its low 20 bits, or PcRangeFault when PC_OVERFLOW =
fault and it is 2^20 or more (40_cycle.md R116, 43_control_flow.md R160). -/
def narrowPc (s : State) (t : Word) : Except MachineError Addr :=
  match s.params.pcOverflow with
  | .wrap => .ok (t.setWidth 20)
  | .fault => if t.toNat < 1048576 then .ok (t.setWidth 20) else .error (.pcRangeFault t)

/-- seq(pc) (40_cycle.md R116). -/
def seqPc (s : State) : Except MachineError Addr := narrowPc s (s.pc.setWidth 32 + 4#32)

/-- zext_32(pc) + imm, the unnarrowed pc-relative target (43_control_flow.md R160). -/
def relativeTarget (s : State) (imm : Word) : Word := s.pc.setWidth 32 + imm

/-- The target of a taken branch (R160). -/
def branchTarget (s : State) (imm : Word) : Except MachineError Addr := narrowPc s (relativeTarget s imm)

/-- JAL's target, always narrowed to its low 20 bits (R160, R161). -/
def jalTarget (s : State) (imm : Word) : Addr := (relativeTarget s imm).setWidth 20

/-- JALR's candidate: x[rs1] + imm modulo 2^32 with bit 0 cleared (R162). -/
def jalrCandidate (s : State) (base : RegIdx) (imm : Word) : Word := (s.readReg base + imm) &&& 0xFFFFFFFE#32

/-- The state JALR reads rs1 from: after the link write under link_first (43_control_flow.md R163). -/
def jalrReadState (s : State) (d : RegIdx) : State :=
  match s.params.jalrOrder with
  | .linkFirst => s.writeReg d (linkValue s)
  | .readFirst => s

end Sys2Proof.Machine
end

