-- ==== Sys2Proof/Machine/Alu.lean ====
section
/-! DEFINITION. ADD and SUB (spec/41_alu.md R142, R143). -/

namespace Sys2Proof.Machine

/-- The sequential pc first, then the result, its write and pc (R142, conflict C10). -/
def execAlu (d : RegIdx) (r : Word) (s : State) : Host.Outcome State Fault Refusal :=
  proceed (seqPc s) s fun npc => .next ((s.writeReg d r).setPc npc)

/-- ADD (R142). -/
def execAdd (d a b : RegIdx) (s : State) : Host.Outcome State Fault Refusal :=
  execAlu d (aluAdd s.params.arithMode (s.readReg a) (s.readReg b)) s

/-- SUB (R143). -/
def execSub (d a b : RegIdx) (s : State) : Host.Outcome State Fault Refusal :=
  execAlu d (aluSub s.params.arithMode (s.readReg a) (s.readReg b)) s

end Sys2Proof.Machine
end

