-- ==== Sys2Proof/Machine/ControlFlow.lean ====
section
/-! DEFINITION. JAL, JALR, BEQ and BNE (spec/43_control_flow.md R161 to R165). -/

namespace Sys2Proof.Machine

/-- JAL: the link from the old pc, then the narrowed target; it cannot fault (R161). -/
def execJal (d : RegIdx) (imm : Word) (s : State) : Host.Outcome State Fault Refusal :=
  whenRepresentable .J imm <| .next ((s.writeReg d (linkValue s)).setPc (jalTarget s imm))

/-- JALR under both orders (R162, R163): link_first reads rs1 after the link write, and the link stays when the candidate is out of
range; read_first reads rs1 first and writes nothing then. -/
def execJalr (d base : RegIdx) (imm : Word) (s : State) : Host.Outcome State Fault Refusal :=
  whenRepresentable .I imm <|
    let before := jalrReadState s d
    let c := jalrCandidate before base imm
    if c.toNat ≥ 1048576 then raise (.addressRangeError c) before
    else .next ((s.writeReg d (linkValue s)).setPc (c.setWidth 20))

/-- A conditional branch: the pc-relative target when taken, else the sequential pc; no register is written (R164, R165). -/
def execBranch (taken : Bool) (imm : Word) (s : State) : Host.Outcome State Fault Refusal :=
  whenRepresentable .B imm <|
    proceed (if taken then branchTarget s imm else seqPc s) s fun npc => .next (s.setPc npc)

/-- BEQ (R164). -/
def execBeq (a b : RegIdx) (imm : Word) (s : State) : Host.Outcome State Fault Refusal :=
  execBranch (s.readReg a == s.readReg b) imm s

/-- BNE (R165). -/
def execBne (a b : RegIdx) (imm : Word) (s : State) : Host.Outcome State Fault Refusal :=
  execBranch (s.readReg a != s.readReg b) imm s

end Sys2Proof.Machine
end

