-- ==== Sys2Proof/Machine/LoadStore.lean ====
section
/-! DEFINITION. LW and SW (spec/42_load_store.md R151, R152). -/

namespace Sys2Proof.Machine

/-- What LW and SW do before their access: bounds, alignment, then the sequential pc (R151, R152). -/
def withAccess (kind : AccessKind) (ea : Word) (s : State) (k : Addr → Host.Outcome State Fault Refusal) :
    Host.Outcome State Fault Refusal :=
  proceed (checkAccess s kind ea) s fun _ => proceed (seqPc s) s k

/-- LW (R151). -/
def execLw (d base : RegIdx) (imm : Word) (s : State) : Host.Outcome State Fault Refusal :=
  whenRepresentable .I imm <|
    withAccess .load (effectiveAddress s base imm) s fun npc =>
      .next ((s.writeReg d (Memory.readWord s.mem (effectiveAddress s base imm).toNat)).setPc npc)

/-- SW (R152). -/
def execSw (base src : RegIdx) (imm : Word) (s : State) : Host.Outcome State Fault Refusal :=
  whenRepresentable .S imm <|
    withAccess .store (effectiveAddress s base imm) s fun npc =>
      .next ((s.setMem (Memory.writeWord s.mem (effectiveAddress s base imm).toNat (s.readReg src))).setPc npc)

end Sys2Proof.Machine
end

