-- ==== Sys2Proof/Machine/Step.lean ====
section
/-! DEFINITION. The tick (spec/40_cycle.md R111): fetch, decode and execute exactly one instruction. -/

namespace Sys2Proof.Machine

/-- tick() (R111, R118): an error of fetch or decode is raised on the state before the tick; started is set, since execution begins
at the first tick (R124). -/
def step (s : State) : Host.Outcome State Fault Refusal :=
  match fetchInstr s.begin with
  | .ok i => exec i s.begin
  | .error e => raise e s.begin

/-- s with that word stored big-endian at pc, where step fetches next; it stands for load_memory (log 7). -/
def State.withFetchWord (s : State) (nbits w : Nat) : State := placeAtPc s nbits w

end Sys2Proof.Machine
end

