-- ==== Sys2Proof/Machine/Assembly.lean ====
section
/-! DEFINITION. The written form of instructions and the pseudo-instructions (spec/30_encoding.md R90, R91, decision D20). No rule of the machine depends on them (log 28). -/

namespace Sys2Proof.Machine

/-- The pseudo-instructions of R91. -/
inductive Pseudo where
  | j (offset : Word)
  | jal (offset : Word)
  | jr (rs : RegIdx)
  | jalr (rs : RegIdx)
  | ret
  | beqz (rs : RegIdx) (offset : Word)
  | bnez (rs : RegIdx) (offset : Word)
  | mv (rd rs : RegIdx)
  | nop
  | neg (rd rs : RegIdx)
  deriving DecidableEq, Repr

/-- The expansions of R91; mv and nop are ADDs, since CORE has no ADDI. -/
def expandPseudo : Pseudo → Instr
  | .j offset => .jal 0 offset
  | .jal offset => .jal 1 offset
  | .jr rs => .jalr 0 rs 0
  | .jalr rs => .jalr 1 rs 0
  | .ret => .jalr 0 1 0
  | .beqz rs offset => .beq rs 0 offset
  | .bnez rs offset => .bne rs 0 offset
  | .mv d rs => .add d rs 0
  | .nop => .add 0 0 0
  | .neg d rs => .sub d 0 rs

/-- Registers are written x0 to x31 (R90). -/
def regText (i : RegIdx) : String := "x" ++ toString i.toNat

/-- The immediate as a signed number: the offset written is the one the word carries (R90). -/
def immText (v : Word) : String := toString v.toInt

/-- The syntax of R90. -/
def instrText : Instr → String
  | .add d a b => "add " ++ regText d ++ ", " ++ regText a ++ ", " ++ regText b
  | .sub d a b => "sub " ++ regText d ++ ", " ++ regText a ++ ", " ++ regText b
  | .lw d a imm => "lw " ++ regText d ++ ", " ++ immText imm ++ "(" ++ regText a ++ ")"
  | .sw a b imm => "sw " ++ regText b ++ ", " ++ immText imm ++ "(" ++ regText a ++ ")"
  | .jal d imm => "jal " ++ regText d ++ ", " ++ immText imm
  | .jalr d a imm => "jalr " ++ regText d ++ ", " ++ immText imm ++ "(" ++ regText a ++ ")"
  | .beq a b imm => "beq " ++ regText a ++ ", " ++ regText b ++ ", " ++ immText imm
  | .bne a b imm => "bne " ++ regText a ++ ", " ++ regText b ++ ", " ++ immText imm

end Sys2Proof.Machine
end

