-- ==== Sys2Proof/Machine/Phases.lean ====
section
/-! DEFINITION. The tick read as a finite-state machine (spec/40_cycle.md R119, decision D17): READY, FETCH, DECODE, EXECUTE, ERROR. DEDUCED, safe (log 14): step stays the one transition of the model, and this reading is a second description of it. -/

namespace Sys2Proof.Machine

/-- The states of R119, with what each carries to the next. -/
inductive Phase where
  | ready
  | fetch
  | decode (inst : Word)
  | execute (i : Instr)
  | error (e : MachineError)
  deriving DecidableEq, Repr

/-- A phase and the machine state. -/
structure Fsm where
  phase : Phase
  state : State
  deriving DecidableEq, Repr

/-- READY and ERROR wait for a tick request (R119). -/
def fsmAtRest (f : Fsm) : Bool :=
  match f.phase with
  | .ready => true
  | .error _ => true
  | .fetch => false
  | .decode _ => false
  | .execute _ => false

/-- One transition; from READY or ERROR it is the tick request (R119). -/
def fsmAdvance (f : Fsm) : Except Refusal Fsm :=
  match f.phase with
  | .ready => .ok ⟨.fetch, f.state.begin⟩
  | .error _ => .ok ⟨.fetch, f.state.begin⟩
  | .fetch =>
    match fetchWord f.state with
    | .ok w => .ok ⟨.decode w, f.state⟩
    | .error e => .ok ⟨.error e, f.state.recordError e⟩
  | .decode w =>
    match decodeFetched w with
    | .ok i => .ok ⟨.execute i, f.state⟩
    | .error e => .ok ⟨.error e, f.state.recordError e⟩
  | .execute i =>
    match exec i f.state with
    | .next t => .ok ⟨.ready, t⟩
    | .fault (.err e t) => .ok ⟨.error e, t⟩
    | .refused r => .error r

/-- At most n transitions, stopping at rest. -/
def fsmSettle (n : Nat) (f : Fsm) : Except Refusal Fsm :=
  match n with
  | 0 => .ok f
  | m + 1 =>
    if fsmAtRest f then .ok f
    else
      match fsmAdvance f with
      | .ok g => fsmSettle m g
      | .error r => .error r

/-- A tick request answered: the request, then FETCH, DECODE and EXECUTE as far as no error stops them (R119). -/
def fsmTick (f : Fsm) : Except Refusal Fsm :=
  match fsmAdvance f with
  | .ok g => fsmSettle 3 g
  | .error r => .error r

end Sys2Proof.Machine
end

