-- ==== Sys2Proof/Machine/HostInterface.lean ====
section
/-! DEFINITION. What the host can do between steps (spec/40_cycle.md R120 to R125): load_memory, tick, run, and reading registers, memory and pc. -/

namespace Sys2Proof.Machine

/-- tick() as the host calls it (R123). -/
def tick (s : State) : Host.Outcome State Fault Refusal := step s

/-- k ticks in a row, stopping at the first error (R123, 60_exceptions.md R180). -/
def ticks (k : Nat) (s : State) : Host.Outcome State Fault Refusal :=
  match k with
  | 0 => .next s
  | n + 1 =>
    match tick s with
    | .next t => ticks n t
    | .fault f => .fault f
    | .refused r => .refused r

/-- The host's read of register i (R123, 10_state.md R23). -/
def hostReadReg (s : State) (i : RegIdx) : Word := s.readReg i

/-- The host's read of pc (R123, decision D24). -/
def hostReadPc (s : State) : Addr := s.pc

/-- The host's read of the n bytes from address a on (R123); none when they do not all exist. DESIGN CHOICE, safe (log 12). -/
def hostReadBytes (s : State) (a n : Nat) : Option (List Byte) :=
  if a + n ≤ s.params.memSize then some ((List.range n).map fun k => Memory.read s.mem (a + k)) else none

/-- load_memory(M): replaces the whole memory with the image, 0 where it gives no byte; refused after the first tick (R124, decision
D21). An image longer than MEM_SIZE is refused. DESIGN CHOICE, safe (log 11). Before the first tick any number of calls is admitted,
each replacing the whole memory. DESIGN CHOICE, safe (log 31): 70_reset_and_hazards.md R201 has the host call it once, and no rule says
what a second call does. -/
def loadMemory (image : List Byte) (s : State) : Host.Outcome State Fault Refusal :=
  if s.started then .refused .loadAfterStart
  else if s.params.memSize < image.length then .refused .imageTooLong
  else .next (s.setMem (Memory.ofBytes 0 image))

/-- How run under fuel ends. -/
inductive RunResult where
  /-- run returned Ok: the predicate holds of the pc after the last tick (R120). -/
  | ok (s : State)
  /-- run returned Err(E), with the state as the tick left it (R120). -/
  | err (e : MachineError) (after : State)
  /-- A tick met an input with no meaning; no decoded instruction does. -/
  | refused (r : Refusal)
  /-- The fuel ran out: no outcome of CORE, neither Ok nor an error (R121). -/
  | outOfFuel (s : State)
  deriving DecidableEq, Repr

/-- run(p) under fuel (R120, R121): a tick first, then the predicate on the pc it wrote (R122). -/
def run (fuel : Nat) (stop : Addr → Bool) (s : State) : RunResult :=
  match fuel with
  | 0 => .outOfFuel s
  | n + 1 =>
    match step s with
    | .next t => if stop t.pc then .ok t else run n stop t
    | .fault (.err e t) => .err e t
    | .refused r => .refused r

end Sys2Proof.Machine
end

