-- ==== Sys2Proof/Safety.lean ====
section
/-! DEFINITION. What counts as a legal state and as a good end of a run, in the terms claims use (spec/40_cycle.md R126, spec/60_exceptions.md R189). -/

namespace Sys2Proof.Machine

/-- A legal state: MEM_SIZE in the range of 00_scope.md R7, the slot behind the hardwired x0 holding 0 (10_state.md R23), memory in
its canonical form with no byte listed at or past MEM_SIZE (10_state.md R34). -/
def State.Inv (s : State) : Prop :=
  s.params.wf ∧ s.x[0] = 0#32 ∧ Memory.wf s.mem ∧ Memory.below s.mem s.params.memSize

/-- Equal but for the model's bookkeeping: the same { X, MEM, pc } and parameters (10_state.md R20). -/
def SameMachine (s t : State) : Prop := s.x = t.x ∧ s.pc = t.pc ∧ s.mem = t.mem ∧ s.params = t.params

/-- A good end of a run (R126, decision D22): the predicate holds of pc and no fault is recorded. -/
def GoodEnd (stop : Addr → Bool) (s : State) : Prop := stop s.pc = true ∧ s.faultRecord = none

/-- The states a host can bring about from a launch: construction, load_memory (any number of calls before the first
tick, log 31), ticks, and going on after an error (R123, R189). -/
inductive HostReaches (l : Launch) : State → Prop where
  | constructed : HostReaches l (State.launch l)
  | loaded {s t : State} {image : List Byte} : HostReaches l s → loadMemory image s = .next t → HostReaches l t
  | ticked {s t : State} : HostReaches l s → tick s = .next t → HostReaches l t
  | stopped {s t : State} {e : MachineError} : HostReaches l s → tick s = .fault (.err e t) → HostReaches l t

end Sys2Proof.Machine
end

