-- ==== Sys2Proof/Certificates/Slice0/Obligations.lean ====
section
/-! DEFINITION. The statements for the provers, from the numbered rules of spec/. Each docstring names what it rests on; a decision D<n> is of spec/92_eei_decisions.md, a log entry is of notes/assumptions/. -/

open Sys2Proof Sys2Proof.Machine

/-! Codec (spec/30_encoding.md). -/

/-- R61, R62: each accessor reads its own bits, and the six fields, high to low, are the whole word. -/
def Obligations.BaseFieldsCoverWord : Prop :=
  ∀ w : Word,
    ((funct7 w ++ rs2 w ++ rs1 w ++ funct3 w ++ rd w ++ opcode w : BitVec 32) = w) ∧
    (∀ n, n < 7 → (opcode w).getLsbD n = w.getLsbD n) ∧
    (∀ n, n < 5 → (rd w).getLsbD n = w.getLsbD (7 + n)) ∧
    (∀ n, n < 3 → (funct3 w).getLsbD n = w.getLsbD (12 + n)) ∧
    (∀ n, n < 5 → (rs1 w).getLsbD n = w.getLsbD (15 + n)) ∧
    (∀ n, n < 5 → (rs2 w).getLsbD n = w.getLsbD (20 + n)) ∧
    (∀ n, n < 7 → (funct7 w).getLsbD n = w.getLsbD (25 + n))

/-- The laws R63 derives, of each of the six mutators: a written field reads back, writing what is there changes nothing, every other
field and every bit outside is kept; the last clause says the latter of withBits at each base field. -/
def Obligations.FieldMutatorLaws : Prop :=
  (∀ (w : Word) (a : BitVec 7) (b c d : RegIdx) (e : BitVec 3) (f : BitVec 7),
    opcode (withOpcode w a) = a ∧ rd (withRd w b) = b ∧ funct3 (withFunct3 w e) = e ∧
    rs1 (withRs1 w c) = c ∧ rs2 (withRs2 w d) = d ∧ funct7 (withFunct7 w f) = f ∧
    withOpcode w (opcode w) = w ∧ withRd w (rd w) = w ∧ withFunct3 w (funct3 w) = w ∧
    withRs1 w (rs1 w) = w ∧ withRs2 w (rs2 w) = w ∧ withFunct7 w (funct7 w) = w) ∧
  (∀ (w : Word) (a : BitVec 7), let u := withOpcode w a
    rd u = rd w ∧ funct3 u = funct3 w ∧ rs1 u = rs1 w ∧ rs2 u = rs2 w ∧ funct7 u = funct7 w ∧
    ∀ n, n < 32 → 7 ≤ n → u.getLsbD n = w.getLsbD n) ∧
  (∀ (w : Word) (a : RegIdx), let u := withRd w a
    opcode u = opcode w ∧ funct3 u = funct3 w ∧ rs1 u = rs1 w ∧ rs2 u = rs2 w ∧ funct7 u = funct7 w ∧
    ∀ n, n < 32 → (n < 7 ∨ 12 ≤ n) → u.getLsbD n = w.getLsbD n) ∧
  (∀ (w : Word) (a : BitVec 3), let u := withFunct3 w a
    opcode u = opcode w ∧ rd u = rd w ∧ rs1 u = rs1 w ∧ rs2 u = rs2 w ∧ funct7 u = funct7 w ∧
    ∀ n, n < 32 → (n < 12 ∨ 15 ≤ n) → u.getLsbD n = w.getLsbD n) ∧
  (∀ (w : Word) (a : RegIdx), let u := withRs1 w a
    opcode u = opcode w ∧ rd u = rd w ∧ funct3 u = funct3 w ∧ rs2 u = rs2 w ∧ funct7 u = funct7 w ∧
    ∀ n, n < 32 → (n < 15 ∨ 20 ≤ n) → u.getLsbD n = w.getLsbD n) ∧
  (∀ (w : Word) (a : RegIdx), let u := withRs2 w a
    opcode u = opcode w ∧ rd u = rd w ∧ funct3 u = funct3 w ∧ rs1 u = rs1 w ∧ funct7 u = funct7 w ∧
    ∀ n, n < 32 → (n < 20 ∨ 25 ≤ n) → u.getLsbD n = w.getLsbD n) ∧
  (∀ (w : Word) (a : BitVec 7), let u := withFunct7 w a
    opcode u = opcode w ∧ rd u = rd w ∧ funct3 u = funct3 w ∧ rs1 u = rs1 w ∧ rs2 u = rs2 w ∧
    ∀ n, n < 25 → u.getLsbD n = w.getLsbD n) ∧
  (∀ lo len, (lo, len) ∈ baseFields → ∀ (w : Word) (v : BitVec len) (n : Nat), n < 32 → ¬(lo ≤ n ∧ n < lo + len) →
    (withBits w lo v).getLsbD n = w.getLsbD n)

/-- R71 to R76 bit by bit. The placement is from general knowledge in the spec (GK1), PRESUMED (log 9). -/
def Obligations.ImmediateBitPlacement : Prop :=
  ∀ (w : Word) (n : Nat), n < 32 →
    ((immediate w .I).getLsbD n = if n < 11 then w.getLsbD (20 + n) else w.getLsbD 31) ∧
    ((immediate w .S).getLsbD n =
      if n < 5 then w.getLsbD (7 + n) else if n < 11 then w.getLsbD (20 + n) else w.getLsbD 31) ∧
    ((immediate w .B).getLsbD n =
      if n = 0 then false else if n < 5 then w.getLsbD (7 + n) else if n < 11 then w.getLsbD (20 + n)
      else if n = 11 then w.getLsbD 7 else w.getLsbD 31) ∧
    ((immediate w .U).getLsbD n = if n < 12 then false else w.getLsbD n) ∧
    ((immediate w .J).getLsbD n =
      if n = 0 then false else if n < 11 then w.getLsbD (20 + n) else if n = 11 then w.getLsbD 20
      else if n < 20 then w.getLsbD n else w.getLsbD 31)

/-- R78: the table of representable values, and the round trip for every word and every such value. -/
def Obligations.ImmediateRoundTrip : Prop :=
  ∀ (k : ImmKind) (v : Word),
    (representable k v = true ↔
      match k with
      | .I => -2048 ≤ v.toInt ∧ v.toInt ≤ 2047
      | .S => -2048 ≤ v.toInt ∧ v.toInt ≤ 2047
      | .B => -4096 ≤ v.toInt ∧ v.toInt ≤ 4094 ∧ v.getLsbD 0 = false
      | .U => ∀ n, n < 12 → v.getLsbD n = false
      | .J => -1048576 ≤ v.toInt ∧ v.toInt ≤ 1048574 ∧ v.getLsbD 0 = false) ∧
    (representable k v = true → ∀ w : Word, immediate (withImmediate w v k) k = v)

/-- The bits each kind owns (R80, derived there from R77): no other bit changes, and inserting 0 into all ones clears exactly those. -/
def Obligations.InsertionTouchesOwnedBitsOnly : Prop :=
  ∀ (k : ImmKind) (w v : Word) (n : Nat), n < 32 →
    (ownsBit k n = false → (withImmediate w v k).getLsbD n = w.getLsbD n) ∧
    (withImmediate 0xFFFFFFFF#32 0#32 k).getLsbD n = !ownsBit k n

/-- R79, decision D16: what the raw codec stores and reads back of any value, representable or not. -/
def Obligations.RawCodecKeepsStorableBits : Prop :=
  ∀ w v : Word,
    immediate (withImmediate w v .I) .I = (v.extractLsb' 0 12).signExtend 32 ∧
    immediate (withImmediate w v .S) .S = (v.extractLsb' 0 12).signExtend 32 ∧
    immediate (withImmediate w v .B) .B = (v.extractLsb' 1 12 ++ 0#1).signExtend 32 ∧
    immediate (withImmediate w v .U) .U = (v.extractLsb' 12 20 ++ 0#12 : BitVec 32) ∧
    immediate (withImmediate w v .J) .J = (v.extractLsb' 1 20 ++ 0#1).signExtend 32

/-- R87 (its match and mask are derived there from R81): a word is a row's variant exactly when its masked bits are the row's, and
then the operands are read as R82 says. Decision D13 fixes funct3 for LW, SW and JALR (log 21). -/
def Obligations.OpcodeMapDecides : Prop :=
  ∀ w : Word,
    (w &&& 0xFE00707F#32 = 0x00000033#32 ↔ decode w = .ok (.add (rd w) (rs1 w) (rs2 w))) ∧
    (w &&& 0xFE00707F#32 = 0x40000033#32 ↔ decode w = .ok (.sub (rd w) (rs1 w) (rs2 w))) ∧
    (w &&& 0x0000707F#32 = 0x00002003#32 ↔ decode w = .ok (.lw (rd w) (rs1 w) (immediate w .I))) ∧
    (w &&& 0x0000707F#32 = 0x00002023#32 ↔ decode w = .ok (.sw (rs1 w) (rs2 w) (immediate w .S))) ∧
    (w &&& 0x0000007F#32 = 0x0000006F#32 ↔ decode w = .ok (.jal (rd w) (immediate w .J))) ∧
    (w &&& 0x0000707F#32 = 0x00000067#32 ↔ decode w = .ok (.jalr (rd w) (rs1 w) (immediate w .I))) ∧
    (w &&& 0x0000707F#32 = 0x00000063#32 ↔ decode w = .ok (.beq (rs1 w) (rs2 w) (immediate w .B))) ∧
    (w &&& 0x0000707F#32 = 0x00001063#32 ↔ decode w = .ok (.bne (rs1 w) (rs2 w) (immediate w .B)))

/-- R86: both round trips, for every well-formed instruction (each has a word) and every valid word, and that decoding is
injective. -/
def Obligations.DecodeEncodeRoundTrip : Prop :=
  (∀ i : Instr, i.wf = true → ∃ w, encode i = .ok w ∧ decode w = .ok i) ∧
  (∀ (w : Word) (i : Instr), decode w = .ok i → encode i = .ok w) ∧
  (∀ (w v : Word) (i : Instr), decode w = .ok i → decode v = .ok i → w = v)

/-- R85 with R79's last sentences (decision D16, log 8): an instruction whose immediate its kind cannot represent is refused at
construction, is not encoded, and is what no word decodes to; and encode answers exactly where some word decodes to the
instruction, so that it drops no bit of an immediate. -/
def Obligations.IllFormedIsNotEncoded : Prop :=
  (∀ i : Instr, i.wf = false →
    construct i = .error (.unrepresentableImmediate i) ∧ encode i = .error (.unrepresentableImmediate i) ∧
    ∀ w, decode w ≠ .ok i) ∧
  (∀ i : Instr, i.wf = true → construct i = .ok i) ∧
  (∀ i : Instr, (∃ w, encode i = .ok w) ↔ ∃ w, decode w = .ok i) ∧
  (∀ (i : Instr) (w : Word), encode i = .ok w → decode w = .ok i)

/-- What the decoder gives is well-formed (from R71 to R75, R78 and R82). -/
def Obligations.DecodedInstructionsAreWellFormed : Prop :=
  ∀ (w : Word) (i : Instr), decode w = .ok i → i.wf = true

/-- Words of 95_test_vectors.md section 2.3, one of each variant. -/
def Obligations.SpecWordsDecode : Prop :=
  decode 0x002081B3#32 = .ok (.add 3 1 2) ∧
  decode 0x402081B3#32 = .ok (.sub 3 1 2) ∧
  decode 0xFFC52283#32 = .ok (.lw 5 10 (BitVec.ofInt 32 (-4))) ∧
  decode 0xFEB52E23#32 = .ok (.sw 10 11 (BitVec.ofInt 32 (-4))) ∧
  decode 0xFEDFF06F#32 = .ok (.jal 0 (BitVec.ofInt 32 (-20))) ∧
  decode 0xFFF280E7#32 = .ok (.jalr 1 5 (BitVec.ofInt 32 (-1))) ∧
  decode 0x00038C63#32 = .ok (.beq 7 0 24) ∧
  decode 0xFE209CE3#32 = .ok (.bne 1 2 (BitVec.ofInt 32 (-8)))

/-- A word that matches no row of the opcode map is InvalidInstruction, and is the only word that is; fetched, it stops the tick, is
recorded, and leaves every register, byte and pc (R83, R88, R182). Which words these are rests on R87's match and mask, which the spec
derives, and on decision D13's funct3 for LW, SW and JALR (log 21). -/
def Obligations.InvalidWordsChangeNothing : Prop :=
  (∀ w : Word, (∀ r ∈ opcodeRows, w &&& r.2 ≠ r.1) ↔ decode w = .error (.invalidInstruction w)) ∧
  (∀ (w : Word) (e : DecodeError), decode w = .error e → e = .invalidInstruction w) ∧
  (∀ (s : State) (w : Word), fetchWord s = .ok w → (∀ r ∈ opcodeRows, w &&& r.2 ≠ r.1) →
    ∃ t, step s = .fault (.err (.invalidInstruction w) t) ∧ SameMachine s t)

/-! Registers, memory, reset. -/

/-- R23: x0 reads 0 whatever is written to it, any other register the last value written, or REG_INIT if none was; and a write to x0
changes nothing (R24). -/
def Obligations.RegisterReadsLastWrite : Prop :=
  (∀ (s : State) (i j : RegIdx) (v : Word),
    (s.writeReg i v).readReg j = if j = 0 then 0 else if j = i then v else s.readReg j) ∧
  (∀ (l : Launch) (j : RegIdx),
    (State.launch l).readReg j = if j = 0 then 0 else l.regInit[j.toNat]'(by have := j.isLt; omega)) ∧
  (∀ (s : State) (v : Word), s.writeReg 0 v = s)

/-- R200 with R36, R37, R38: what construction leaves, for every REG_INIT, PC_INIT and parameters (decisions D1, D2, D3); that
State.reset is the launch with the defaults of R7 is the model's choice (log 1, log 2, log 10). -/
def Obligations.LaunchLeaves : Prop :=
  (∀ (l : Launch) (a : Nat),
    Memory.read (State.launch l).mem a = 0 ∧ (State.launch l).pc = l.pcInit ∧ (State.launch l).readReg 0 = 0 ∧
    (State.launch l).faultRecord = none ∧ (State.launch l).params = l.params) ∧
  State.reset = State.launch Launch.default ∧
  State.reset.params = ⟨2 ^ 20, .saturating, .linkFirst, .bytewise, .wrap⟩

/-- R41, R42: words in memory are big-endian, and a store changes exactly its four bytes. -/
def Obligations.MemoryIsBigEndian : Prop :=
  (∀ (m : Memory) (a : Nat),
    (Memory.readWord m a).extractLsb' 24 8 = Memory.read m a ∧
    (Memory.readWord m a).extractLsb' 16 8 = Memory.read m (a + 1) ∧
    (Memory.readWord m a).extractLsb' 8 8 = Memory.read m (a + 2) ∧
    (Memory.readWord m a).extractLsb' 0 8 = Memory.read m (a + 3)) ∧
  (∀ (m : Memory) (a b : Nat) (v : Word), Memory.wf m →
    Memory.read (Memory.writeWord m a v) b =
      if b = a then v.extractLsb' 24 8 else if b = a + 1 then v.extractLsb' 16 8
      else if b = a + 2 then v.extractLsb' 8 8 else if b = a + 3 then v.extractLsb' 0 8 else Memory.read m b)

/-- The model's canonical form is one list per memory: memories that read alike are equal. -/
def Obligations.MemoryFormIsUnique : Prop :=
  ∀ m n : Memory, Memory.wf m → Memory.wf n → (∀ a, Memory.read m a = Memory.read n a) → m = n

/-- R154 at the instructions: LW reads back what SW stored at the same address, aligned or not (the misaligned case is derived there
from R41 and R42), whatever ran between, if the four bytes there still read as the store left them. -/
def Obligations.LoadReadsBackStore : Prop :=
  ∀ (s t u r : State) (base src d base' : RegIdx) (imm imm' : Word), Memory.wf s.mem → d ≠ 0 →
    exec (.sw base src imm) s = .next t →
    (∀ k, k < 4 → Memory.read u.mem ((effectiveAddress s base imm).toNat + k) =
      Memory.read t.mem ((effectiveAddress s base imm).toNat + k)) →
    effectiveAddress u base' imm' = effectiveAddress s base imm →
    exec (.lw d base' imm') u = .next r → r.readReg d = s.readReg src

/-! Results: each instruction answers a next state under conditions on the state and operands alone. -/

/-- R142, R144, decisions D8, D14: ADD answers the clamped or the wrapped sum and the sequential pc. -/
def Obligations.AddResult : Prop :=
  ∀ (d a b : RegIdx) (s : State), (s.params.pcOverflow = .wrap ∨ s.pc.toNat + 4 < 2 ^ 20) →
    exec (.add d a b) s = .next ((s.writeReg d
      (match s.params.arithMode with
        | .saturating => BitVec.ofNat 32 (min ((s.readReg a).toNat + (s.readReg b).toNat) 0xFFFFFFFF)
        | .wrapping => BitVec.ofNat 32 (((s.readReg a).toNat + (s.readReg b).toNat) % 2 ^ 32))).setPc
      (BitVec.ofNat 20 ((s.pc.toNat + 4) % 2 ^ 20)))

/-- R143, R144, decisions D8, D14: SUB answers the difference clamped at 0 (the subtraction of natural numbers) or the wrapped one. -/
def Obligations.SubResult : Prop :=
  ∀ (d a b : RegIdx) (s : State), (s.params.pcOverflow = .wrap ∨ s.pc.toNat + 4 < 2 ^ 20) →
    exec (.sub d a b) s = .next ((s.writeReg d
      (match s.params.arithMode with
        | .saturating => BitVec.ofNat 32 ((s.readReg a).toNat - (s.readReg b).toNat)
        | .wrapping => BitVec.ofNat 32 (((s.readReg a).toNat + 2 ^ 32 - (s.readReg b).toNat) % 2 ^ 32))).setPc
      (BitVec.ofNat 20 ((s.pc.toNat + 4) % 2 ^ 20)))

/-- R150, R151, decisions D4 to D6, D8: LW of a word inside memory answers its four bytes, most significant first. -/
def Obligations.LwResult : Prop :=
  ∀ (d base : RegIdx) (imm : Word) (s : State) (ea : Nat),
    ea = ((s.readReg base).toNat + imm.toNat) % 2 ^ 32 → representable .I imm = true → ea + 3 < s.params.memSize →
    (s.params.misaligned = .bytewise ∨ ea % 4 = 0) → (s.params.pcOverflow = .wrap ∨ s.pc.toNat + 4 < 2 ^ 20) →
    exec (.lw d base imm) s = .next ((s.writeReg d
      (Memory.read s.mem ea ++ Memory.read s.mem (ea + 1) ++ Memory.read s.mem (ea + 2) ++ Memory.read s.mem (ea + 3))).setPc
      (BitVec.ofNat 20 ((s.pc.toNat + 4) % 2 ^ 20)))

/-- R150, R152, decisions D4 to D6, D8: SW inside memory stores the register's four bytes, most significant first, and changes
nothing else but pc. -/
def Obligations.SwResult : Prop :=
  ∀ (base src : RegIdx) (imm : Word) (s : State) (ea : Nat),
    ea = ((s.readReg base).toNat + imm.toNat) % 2 ^ 32 → representable .S imm = true → ea + 3 < s.params.memSize →
    (s.params.misaligned = .bytewise ∨ ea % 4 = 0) → (s.params.pcOverflow = .wrap ∨ s.pc.toNat + 4 < 2 ^ 20) →
    Memory.wf s.mem →
    ∃ t, exec (.sw base src imm) s = .next t ∧
      t = (s.setMem t.mem).setPc (BitVec.ofNat 20 ((s.pc.toNat + 4) % 2 ^ 20)) ∧
      ∀ b, Memory.read t.mem b =
        if b = ea then (s.readReg src).extractLsb' 24 8 else if b = ea + 1 then (s.readReg src).extractLsb' 16 8
        else if b = ea + 2 then (s.readReg src).extractLsb' 8 8 else if b = ea + 3 then (s.readReg src).extractLsb' 0 8
        else Memory.read s.mem b

/-- R161, R117, decisions D9, D10: JAL writes pc + 4 unnarrowed and goes to pc + imm modulo 2^20, for every state. -/
def Obligations.JalResult : Prop :=
  ∀ (d : RegIdx) (imm : Word) (s : State), representable .J imm = true →
    exec (.jal d imm) s = .next ((s.writeReg d (BitVec.ofNat 32 (s.pc.toNat + 4))).setPc
      (BitVec.ofInt 20 (s.pc.toNat + imm.toInt)))

/-- R162, R163, decisions D10 to D12: JALR to a candidate below 2^20; under link_first with rd = rs1 the base is the link. -/
def Obligations.JalrResult : Prop :=
  ∀ (d base : RegIdx) (imm : Word) (s : State) (c : Nat),
    c = ((if s.params.jalrOrder = .linkFirst ∧ base = d ∧ d ≠ 0 then s.pc.toNat + 4 else (s.readReg base).toNat) + imm.toNat)
      % 2 ^ 32 / 2 * 2 →
    representable .I imm = true → c < 2 ^ 20 →
    exec (.jalr d base imm) s = .next ((s.writeReg d (BitVec.ofNat 32 (s.pc.toNat + 4))).setPc (BitVec.ofNat 20 c))

/-- R164, R160, decision D8: BEQ goes to pc + imm when the registers are equal and to pc + 4 when not. -/
def Obligations.BeqResult : Prop :=
  ∀ (a b : RegIdx) (imm : Word) (s : State), representable .B imm = true →
    (s.readReg a = s.readReg b →
      (s.params.pcOverflow = .wrap ∨ (0 ≤ s.pc.toNat + imm.toInt ∧ s.pc.toNat + imm.toInt < 2 ^ 20)) →
      exec (.beq a b imm) s = .next (s.setPc (BitVec.ofInt 20 (s.pc.toNat + imm.toInt)))) ∧
    (s.readReg a ≠ s.readReg b → (s.params.pcOverflow = .wrap ∨ s.pc.toNat + 4 < 2 ^ 20) →
      exec (.beq a b imm) s = .next (s.setPc (BitVec.ofNat 20 ((s.pc.toNat + 4) % 2 ^ 20))))

/-- R165, R160, decision D8: BNE goes to pc + imm when the registers differ and to pc + 4 when not. -/
def Obligations.BneResult : Prop :=
  ∀ (a b : RegIdx) (imm : Word) (s : State), representable .B imm = true →
    (s.readReg a ≠ s.readReg b →
      (s.params.pcOverflow = .wrap ∨ (0 ≤ s.pc.toNat + imm.toInt ∧ s.pc.toNat + imm.toInt < 2 ^ 20)) →
      exec (.bne a b imm) s = .next (s.setPc (BitVec.ofInt 20 (s.pc.toNat + imm.toInt)))) ∧
    (s.readReg a = s.readReg b → (s.params.pcOverflow = .wrap ∨ s.pc.toNat + 4 < 2 ^ 20) →
      exec (.bne a b imm) s = .next (s.setPc (BitVec.ofNat 20 ((s.pc.toNat + 4) % 2 ^ 20))))

/-! Arithmetic (spec/41_alu.md). -/

/-- R140, R141: the clamps, read as unsigned numbers, with the two test properties. -/
def Obligations.SaturatingArithmeticClamps : Prop :=
  (∀ a b : Word,
    (saturatingAdd a b).toNat = (if a.toNat + b.toNat > 0xFFFFFFFF then 0xFFFFFFFF else a.toNat + b.toNat) ∧
    (saturatingSub a b).toNat = (if a.toNat < b.toNat then 0 else a.toNat - b.toNat)) ∧
  saturatingAdd 0xFFFFFFFF#32 1#32 = 0xFFFFFFFF#32 ∧ saturatingSub 0#32 1#32 = 0#32

/-- The laws R145 derives from R140 and R141. -/
def Obligations.SaturatingArithmeticLaws : Prop :=
  (∀ a b c : Word,
    saturatingAdd a b = saturatingAdd b a ∧
    saturatingAdd (saturatingAdd a b) c = saturatingAdd a (saturatingAdd b c) ∧
    (saturatingAdd (saturatingAdd a b) c).toNat = min (a.toNat + b.toNat + c.toNat) 0xFFFFFFFF ∧
    (a ≤ b → saturatingAdd a c ≤ saturatingAdd b c) ∧
    saturatingAdd a 0 = a ∧
    (a ≤ b → saturatingSub a b = 0) ∧
    (saturatingSub (saturatingAdd a b) b = a ↔ a.toNat + b.toNat ≤ 0xFFFFFFFF)) ∧
  saturatingSub (saturatingAdd 0xFFFFFFFF#32 1#32) 1#32 = 0xFFFFFFFE#32 ∧
  saturatingAdd 0xFFFFFFFF#32 (saturatingSub 1#32 1#32) = 0xFFFFFFFF#32

/-- The pseudo-instructions R91 remarks on (general knowledge, GK5; decision D20; log 28): mv copies exactly in both modes, nop
advances pc alone, neg gives 0 under saturation. -/
def Obligations.PseudoInstructionsAct : Prop :=
  ∀ (s : State) (d r : RegIdx), (s.params.pcOverflow = .wrap ∨ s.pc.toNat + 4 < 2 ^ 20) →
    exec (expandPseudo (.mv d r)) s = .next ((s.writeReg d (s.readReg r)).setPc (s.pc + 4)) ∧
    exec (expandPseudo .nop) s = .next (s.setPc (s.pc + 4)) ∧
    (s.params.arithMode = .saturating → exec (expandPseudo (.neg d r)) s = .next ((s.writeReg d 0).setPc (s.pc + 4)))

/-! Errors (spec/60_exceptions.md). -/

/-- R186 for ADD and SUB, decision D8: at the top of the space under PC_OVERFLOW = fault they stop and change nothing. -/
def Obligations.AluPcRangeFault : Prop :=
  ∀ (d a b : RegIdx) (s : State), s.params.pcOverflow = .fault → 2 ^ 20 ≤ s.pc.toNat + 4 →
    ∃ t, SameMachine s t ∧
      exec (.add d a b) s = .fault (.err (.pcRangeFault (BitVec.ofNat 32 (s.pc.toNat + 4))) t) ∧
      exec (.sub d a b) s = .fault (.err (.pcRangeFault (BitVec.ofNat 32 (s.pc.toNat + 4))) t)

/-- R184, R185, R186, R188 for LW and SW, decisions D5, D6, D8, D19: bounds, then alignment, then the sequential pc, and nothing is
changed. The I and S kinds hold the same values (R78), so one condition on imm serves both. -/
def Obligations.LoadStoreErrorOrder : Prop :=
  ∀ (r base : RegIdx) (imm : Word) (s : State) (ea : Word), ea = effectiveAddress s base imm →
    representable .I imm = true → representable .S imm = true →
    (s.params.memSize ≤ ea.toNat + 3 → ∃ t t', SameMachine s t ∧ SameMachine s t' ∧
      exec (.lw r base imm) s = .fault (.err (.memoryRangeFault .load ea) t) ∧
      exec (.sw base r imm) s = .fault (.err (.memoryRangeFault .store ea) t')) ∧
    (ea.toNat + 3 < s.params.memSize → s.params.misaligned = .fault → ea.toNat % 4 ≠ 0 →
      ∃ t t', SameMachine s t ∧ SameMachine s t' ∧
        exec (.lw r base imm) s = .fault (.err (.misalignedFault .load ea) t) ∧
        exec (.sw base r imm) s = .fault (.err (.misalignedFault .store ea) t')) ∧
    (ea.toNat + 3 < s.params.memSize → (s.params.misaligned = .bytewise ∨ ea.toNat % 4 = 0) →
      s.params.pcOverflow = .fault → 2 ^ 20 ≤ s.pc.toNat + 4 → ∃ t, SameMachine s t ∧
        exec (.lw r base imm) s = .fault (.err (.pcRangeFault (BitVec.ofNat 32 (s.pc.toNat + 4))) t) ∧
        exec (.sw base r imm) s = .fault (.err (.pcRangeFault (BitVec.ofNat 32 (s.pc.toNat + 4))) t))

/-- R183, decisions D11, D12: JALR to a candidate of 2^20 or more stops, records the candidate, and leaves pc and memory; rd holds the
link under link_first and is unchanged under read_first. -/
def Obligations.JalrAddressRangeError : Prop :=
  ∀ (d base : RegIdx) (imm : Word) (s : State), representable .I imm = true →
    (s.params.jalrOrder = .linkFirst →
      ∀ c, c = (((s.writeReg d (BitVec.ofNat 32 (s.pc.toNat + 4))).readReg base + imm) &&& 0xFFFFFFFE#32) → 2 ^ 20 ≤ c.toNat →
      ∃ t, exec (.jalr d base imm) s = .fault (.err (.addressRangeError c) t) ∧
        SameMachine (s.writeReg d (BitVec.ofNat 32 (s.pc.toNat + 4))) t) ∧
    (s.params.jalrOrder = .readFirst → ∀ c, c = ((s.readReg base + imm) &&& 0xFFFFFFFE#32) → 2 ^ 20 ≤ c.toNat →
      ∃ t, exec (.jalr d base imm) s = .fault (.err (.addressRangeError c) t) ∧ SameMachine s t)

/-- R186 for BEQ and BNE, decision D8: a taken target outside the space, and a sequential pc past it, each recorded as the 32-bit
value, nothing changed. -/
def Obligations.BranchPcRangeFault : Prop :=
  ∀ (a b : RegIdx) (imm : Word) (s : State), representable .B imm = true → s.params.pcOverflow = .fault →
    ((s.pc.toNat + imm.toInt < 0 ∨ 2 ^ 20 ≤ s.pc.toNat + imm.toInt) → ∃ t, SameMachine s t ∧
      (s.readReg a = s.readReg b →
        exec (.beq a b imm) s = .fault (.err (.pcRangeFault (BitVec.ofInt 32 (s.pc.toNat + imm.toInt))) t)) ∧
      (s.readReg a ≠ s.readReg b →
        exec (.bne a b imm) s = .fault (.err (.pcRangeFault (BitVec.ofInt 32 (s.pc.toNat + imm.toInt))) t))) ∧
    (2 ^ 20 ≤ s.pc.toNat + 4 → ∃ t, SameMachine s t ∧
      (s.readReg a ≠ s.readReg b →
        exec (.beq a b imm) s = .fault (.err (.pcRangeFault (BitVec.ofNat 32 (s.pc.toNat + 4))) t)) ∧
      (s.readReg a = s.readReg b →
        exec (.bne a b imm) s = .fault (.err (.pcRangeFault (BitVec.ofNat 32 (s.pc.toNat + 4))) t)))

/-- R85, decision D16: exec refuses exactly the instructions that are not well-formed. -/
def Obligations.OnlyIllFormedIsRefused : Prop :=
  ∀ (i : Instr) (s : State),
    (i.wf = false → exec i s = .refused .unrepresentableImmediate) ∧
    (i.wf = true → ∀ r, exec i s ≠ .refused r)

/-- R112, R188, decisions D6, D7, D19: the fetch checks bounds, then alignment, before any decode, and nothing is changed. -/
def Obligations.FetchErrorOrder : Prop :=
  ∀ s : State,
    (s.params.memSize ≤ s.pc.toNat + 3 →
      ∃ t, step s = .fault (.err (.memoryRangeFault .fetch (s.pc.setWidth 32)) t) ∧ SameMachine s t) ∧
    (s.pc.toNat + 3 < s.params.memSize → s.params.misaligned = .fault → s.pc.toNat % 4 ≠ 0 →
      ∃ t, step s = .fault (.err (.misalignedFault .fetch (s.pc.setWidth 32)) t) ∧ SameMachine s t)

/-- The raisers of R181's table, decisions D5 to D8: which error each instruction can raise; JAL none, AddressRangeError JALR alone. -/
def Obligations.ErrorKindsByInstruction : Prop :=
  ∀ (i : Instr) (s t : State) (e : MachineError), exec i s = .fault (.err e t) →
    match i with
    | .add _ _ _ => ∃ v, e = .pcRangeFault v
    | .sub _ _ _ => ∃ v, e = .pcRangeFault v
    | .lw _ base imm => e = .memoryRangeFault .load (effectiveAddress s base imm) ∨
        e = .misalignedFault .load (effectiveAddress s base imm) ∨ ∃ v, e = .pcRangeFault v
    | .sw base _ imm => e = .memoryRangeFault .store (effectiveAddress s base imm) ∨
        e = .misalignedFault .store (effectiveAddress s base imm) ∨ ∃ v, e = .pcRangeFault v
    | .jal _ _ => False
    | .jalr _ _ _ => ∃ c, e = .addressRangeError c
    | .beq _ _ _ => ∃ v, e = .pcRangeFault v
    | .bne _ _ _ => ∃ v, e = .pcRangeFault v

/-- The sentence after R181's table: under MISALIGNED = bytewise and PC_OVERFLOW = wrap a tick raises three kinds only. -/
def Obligations.DefaultParametersRaiseThreeKinds : Prop :=
  ∀ (s t : State) (e : MachineError), s.params.misaligned = .bytewise → s.params.pcOverflow = .wrap →
    step s = .fault (.err e t) →
    (∃ w, e = .invalidInstruction w) ∨ (∃ c, e = .addressRangeError c) ∨ ∃ k a, e = .memoryRangeFault k a

/-- R187, decision D11: after an error the machine is as before the tick, but for the link JALR has written under link_first. -/
def Obligations.ErrorsArePrecise : Prop :=
  ∀ (s t : State) (e : MachineError), step s = .fault (.err e t) →
    SameMachine s t ∨
    ∃ (d base : RegIdx) (imm c : Word), s.params.jalrOrder = .linkFirst ∧ fetchInstr s = .ok (.jalr d base imm) ∧
      e = .addressRangeError c ∧ SameMachine (s.writeReg d (BitVec.ofNat 32 (s.pc.toNat + 4))) t

/-- R189 (derived there) with U13 and decision D17: a tick after an error raises the same error and leaves the state as it is, after
JALR under link_first too. -/
def Obligations.ErrorRepeatsOnNextTick : Prop :=
  ∀ (s t : State) (e : MachineError), step s = .fault (.err e t) → step t = .fault (.err e t)

/-- R189's fault record, with the model's own started flag and carried parameters (log 3, log 5, log 6): a good tick leaves the
record, an error sets it if it is empty, started holds after every tick, and no tick changes a parameter. -/
def Obligations.BookkeepingOfTick : Prop :=
  ∀ s t : State,
    (step s = .next t → t.faultRecord = s.faultRecord ∧ t.started = true ∧ t.params = s.params) ∧
    (∀ e, step s = .fault (.err e t) →
      t.faultRecord = some (s.faultRecord.getD e) ∧ t.started = true ∧ t.params = s.params)

/-! Frames. -/

/-- ADD, SUB, LW, JAL and JALR change rd and pc alone (R25, R29, R31). -/
def Obligations.RegisterWritingFrame : Prop :=
  ∀ (s t : State) (d a b : RegIdx) (imm : Word),
    (exec (.add d a b) s = .next t ∨ exec (.sub d a b) s = .next t ∨ exec (.lw d a imm) s = .next t ∨
      exec (.jal d imm) s = .next t ∨ exec (.jalr d a imm) s = .next t) →
    (∀ j, j ≠ d → t.readReg j = s.readReg j) ∧ t.readReg 0 = 0 ∧
    (∀ n, Memory.read t.mem n = Memory.read s.mem n) ∧
    t.params = s.params ∧ t.faultRecord = s.faultRecord ∧ t.started = s.started

/-- SW changes the four bytes at its effective address and pc alone (R25, R42). -/
def Obligations.StoreFrame : Prop :=
  ∀ (s t : State) (base src : RegIdx) (imm : Word), Memory.wf s.mem → exec (.sw base src imm) s = .next t →
    (∀ j, t.readReg j = s.readReg j) ∧
    (∀ n, ¬((effectiveAddress s base imm).toNat ≤ n ∧ n < (effectiveAddress s base imm).toNat + 4) →
      Memory.read t.mem n = Memory.read s.mem n) ∧
    t.params = s.params ∧ t.faultRecord = s.faultRecord ∧ t.started = s.started

/-- BEQ and BNE change pc alone (R25, R164, R165). -/
def Obligations.BranchFrame : Prop :=
  ∀ (s t : State) (a b : RegIdx) (imm : Word), (exec (.beq a b imm) s = .next t ∨ exec (.bne a b imm) s = .next t) →
    (∀ j, t.readReg j = s.readReg j) ∧ (∀ n, Memory.read t.mem n = Memory.read s.mem n) ∧
    t.params = s.params ∧ t.faultRecord = s.faultRecord ∧ t.started = s.started

/-! The tick and the whole machine. -/

/-- R111, R113: where the four bytes at pc may be fetched and decode to i, the tick is exec of i on the same state with started set
(the model's flag, log 6); nothing else stands around exec. -/
def Obligations.StepRunsDecodedInstruction : Prop :=
  ∀ (s : State) (i : Instr), s.pc.toNat + 3 < s.params.memSize →
    (s.params.misaligned = .bytewise ∨ s.pc.toNat % 4 = 0) →
    decodeBytes [Memory.read s.mem s.pc.toNat, Memory.read s.mem (s.pc.toNat + 1), Memory.read s.mem (s.pc.toNat + 2),
      Memory.read s.mem (s.pc.toNat + 3)] = .ok (i, []) →
    step s = exec i { s with started := true }

/-- A word placed at pc is the next one the tick runs (the model's withFetchWord, log 7; big-endian as R43 says). -/
def Obligations.PlacedWordRuns : Prop :=
  ∀ (s : State) (w : Nat) (i : Instr), Memory.wf s.mem → s.pc.toNat + 3 < s.params.memSize →
    (s.params.misaligned = .bytewise ∨ s.pc.toNat % 4 = 0) → decodeTableWord 32 w = some i →
    step (s.withFetchWord 32 w) = exec i { s.withFetchWord 32 w with started := true }

/-- A tick never meets an input without a meaning (R11, R85). -/
def Obligations.StepNeverRefuses : Prop :=
  ∀ (s : State) (r : Refusal), step s ≠ .refused r

/-- Every tick keeps a state legal, the state an error leaves too: MEM_SIZE in range, the slot behind x0 holding 0, memory in its
form and inside MEM_SIZE (R7, R23, R24, R34, R46). -/
def Obligations.StepKeepsLegalState : Prop :=
  ∀ s : State, s.Inv → (∀ t, step s = .next t → t.Inv) ∧ (∀ e t, step s = .fault (.err e t) → t.Inv)

/-- Every launch with MEM_SIZE in range is a legal state, and so is State.reset. -/
def Obligations.LaunchIsLegal : Prop :=
  (∀ l : Launch, l.params.wf → (State.launch l).Inv) ∧ State.reset.Inv

/-- Whatever the host does (R123, R124; any number of loads before the first tick, log 31), the state is legal and the parameters are the launch's; until the first tick the host has
changed no register and no pc. -/
def Obligations.HostReachesLegalStates : Prop :=
  ∀ (l : Launch) (s : State), l.params.wf → HostReaches l s →
    s.Inv ∧ s.params = l.params ∧
    (s.started = false → s.x = (State.launch l).x ∧ s.pc = l.pcInit ∧ s.faultRecord = none)

/-- R30: from an even pc every tick goes to an even pc, since decoded branch and JAL offsets are even and JALR clears bit 0. -/
def Obligations.EvenPcIsKept : Prop :=
  ∀ s : State, s.pc.toNat % 2 = 0 → (∀ t, step s = .next t → t.pc.toNat % 2 = 0) ∧
    (∀ e t, step s = .fault (.err e t) → t.pc.toNat % 2 = 0)

/-- R55 (derived there): the word a SW stores is what a later tick at that address decodes and runs, with nothing in between. -/
def Obligations.StoreSeenByLaterFetch : Prop :=
  ∀ (s t u : State) (base src : RegIdx) (imm : Word) (i : Instr), Memory.wf s.mem →
    exec (.sw base src imm) s = .next t → u.mem = t.mem → u.params = t.params →
    u.pc.toNat = (effectiveAddress s base imm).toNat → decode (s.readReg src) = .ok i →
    step u = exec i { u with started := true }

/-- R25 as isolation: a register that an instruction does not read has no influence on its outcome, be it a next state, an error
(the same kind and info) or a refusal, but that its own value stays where the instruction does not write it. After an error it is
written by JALR under link_first alone (R183, decision D11), so there its value stays or, where it is rd, is the same link. -/
def Obligations.UnreadRegistersDoNotMatter : Prop :=
  ∀ (i : Instr) (s : State) (k : RegIdx) (v : Word), k ∉ i.sources →
    (∀ t, exec i s = .next t →
      exec i (s.writeReg k v) = .next (if i.dest? = some k then t else t.writeReg k v)) ∧
    (∀ e t, exec i s = .fault (.err e t) →
      ∃ u, exec i (s.writeReg k v) = .fault (.err e u) ∧ (u = t.writeReg k v ∨ (i.dest? = some k ∧ u = t))) ∧
    (∀ r, exec i s = .refused r → exec i (s.writeReg k v) = .refused r)

/-- Only SW changes memory (R25, R48, R52): a tick after which a byte reads differently ran a SW that covers that byte. -/
def Obligations.OnlySwChangesMemory : Prop :=
  ∀ (s t : State) (n : Nat), Memory.wf s.mem → step s = .next t → Memory.read t.mem n ≠ Memory.read s.mem n →
    ∃ base src imm, fetchInstr s = .ok (.sw base src imm) ∧
      (effectiveAddress s base imm).toNat ≤ n ∧ n < (effectiveAddress s base imm).toNat + 4

/-! Host interface (spec/40_cycle.md). -/

/-- R120 of run under fuel (the model's fuel, log 13, from R121): run returns Ok exactly where some number of ticks, at least one, all succeed and the predicate first holds of the pc the
last one wrote; it returns Err exactly where a tick fails before that. -/
def Obligations.RunStopsExactly : Prop :=
  ∀ (n : Nat) (stop : Addr → Bool) (s : State),
    (∀ t, run n stop s = .ok t ↔
      ∃ k, k < n ∧ ticks (k + 1) s = .next t ∧ stop t.pc = true ∧
        ∀ j, j < k → ∃ u, ticks (j + 1) s = .next u ∧ stop u.pc = false) ∧
    (∀ e t, run n stop s = .err e t ↔
      ∃ k, k < n ∧ ticks (k + 1) s = .fault (.err e t) ∧
        ∀ j, j < k → ∃ u, ticks (j + 1) s = .next u ∧ stop u.pc = false)

/-- R121: fuel is no outcome: more of it never changes an Ok or an Err, and only running out of it is neither (log 13). -/
def Obligations.FuelNeverChangesAnOutcome : Prop :=
  ∀ (n m : Nat) (stop : Addr → Bool) (s t : State),
    (run n stop s = .ok t → run (n + m) stop s = .ok t) ∧
    (∀ e, run n stop s = .err e t → run (n + m) stop s = .err e t) ∧
    (∀ r, run n stop s ≠ .refused r)

/-- R126, decision D22: a run that returns Ok is a good end exactly when no fault was recorded before it. -/
def Obligations.OkRunIsGoodEnd : Prop :=
  ∀ (n : Nat) (stop : Addr → Bool) (s t : State), run n stop s = .ok t → (GoodEnd stop t ↔ s.faultRecord = none)

/-- R124, decision D21: before the first tick load_memory replaces the whole memory, 0 past the image, and changes nothing else; after
it it is refused. An image longer than MEM_SIZE is refused, and a second call before the first tick replaces again, by the model's choice
(log 11, log 31). -/
def Obligations.LoadMemoryReplaces : Prop :=
  ∀ (image : List Byte) (s : State),
    (s.started = true → loadMemory image s = .refused .loadAfterStart) ∧
    (s.started = false → s.params.memSize < image.length → loadMemory image s = .refused .imageTooLong) ∧
    (s.started = false → image.length ≤ s.params.memSize →
      ∃ t, loadMemory image s = .next t ∧ t = s.setMem t.mem ∧ Memory.wf t.mem ∧
        ∀ a, Memory.read t.mem a = image.getD a 0)

/-- R119, decision D17 (log 14): from rest, a tick request taken through FETCH, DECODE and EXECUTE ends READY exactly where the tick
succeeds and in ERROR exactly where it raises, with the tick's own state. -/
def Obligations.PhasesRefineTick : Prop :=
  ∀ f : Fsm, fsmAtRest f = true →
    (∀ t, fsmTick f = .ok ⟨.ready, t⟩ ↔ step f.state = .next t) ∧
    (∀ e t, fsmTick f = .ok ⟨.error e, t⟩ ↔ step f.state = .fault (.err e t)) ∧
    (∀ g, fsmTick f = .ok g → fsmAtRest g = true)
end

