-- ==== Sys2Proof/Laws/Decode.lean ====
section
/-! SUPPORT. Well-formedness by variant; the codec bit by bit; what decode can answer. -/

namespace Sys2Proof

section
variable (d a b : RegIdx) (imm : Word)

@[simp] theorem Instr.wf_add : (Instr.add d a b).wf = true := rfl
@[simp] theorem Instr.wf_sub : (Instr.sub d a b).wf = true := rfl
@[simp] theorem Instr.wf_lw : (Instr.lw d a imm).wf = representable .I imm := rfl
@[simp] theorem Instr.wf_sw : (Instr.sw a b imm).wf = representable .S imm := rfl
@[simp] theorem Instr.wf_jal : (Instr.jal d imm).wf = representable .J imm := rfl
@[simp] theorem Instr.wf_jalr : (Instr.jalr d a imm).wf = representable .I imm := rfl
@[simp] theorem Instr.wf_beq : (Instr.beq a b imm).wf = representable .B imm := rfl
@[simp] theorem Instr.wf_bne : (Instr.bne a b imm).wf = representable .B imm := rfl

end

/-- A value in the signed range of m + 1 bits is the sign extension of its low m + 1 bits (R76). -/
theorem signExtend_of_range (v : Word) (m : Nat) (hm : m < 32) (h1 : -(2 ^ m : Int) ≤ v.toInt) (h2 : v.toInt < 2 ^ m) :
    (v.setWidth (m + 1)).signExtend 32 = v := by
  apply BitVec.eq_of_toInt_eq
  rw [BitVec.toInt_signExtend_of_le (by omega), BitVec.toInt_setWidth]
  have hb : Int.bmod (v.toNat : Int) (2 ^ (m + 1)) = Int.bmod v.toInt (2 ^ (m + 1)) := by
    rw [BitVec.toInt_eq_toNat_bmod, Int.bmod_bmod_of_dvd]
    exact pow_dvd_pow 2 (by omega)
  have hp : ((2 ^ (m + 1) : Nat) : Int) = 2 * 2 ^ m := by push_cast; ring
  rw [hb]
  apply Int.bmod_eq_of_le <;> omega

/-- Bit n of a field (30_encoding.md R62). -/
theorem getLsbD_bits (w : Word) (lo len n : Nat) : (bits w lo len).getLsbD n = (decide (n < len) && w.getLsbD (lo + n)) := by
  simp [bits]

/-- Bit n of a field's mask (R63). -/
theorem getLsbD_fieldMask (lo len n : Nat) :
    (fieldMask lo len).getLsbD n = (decide (n < 32) && decide (lo ≤ n) && decide (n - lo < 32) && decide (n - lo < len)) := by
  unfold fieldMask
  rw [BitVec.getLsbD_shiftLeft, BitVec.getLsbD_setWidth, BitVec.getLsbD_allOnes]
  by_cases h1 : n < 32
  · by_cases h2 : n < lo
    · have h3 : ¬ lo ≤ n := by omega
      simp [h1, h2, h3]
    · have h3 : lo ≤ n := by omega
      simp [h1, h2, h3]
  · simp [h1]

/-- Bit n of a word with a field written (R63). -/
theorem getLsbD_withBits {len : Nat} (w : Word) (lo : Nat) (v : BitVec len) (n : Nat) (hn : n < 32) :
    (withBits w lo v).getLsbD n = if lo ≤ n ∧ n < lo + len then v.getLsbD (n - lo) else w.getLsbD n := by
  unfold withBits
  rw [BitVec.getLsbD_or, BitVec.getLsbD_and, BitVec.getLsbD_not, getLsbD_fieldMask, BitVec.getLsbD_shiftLeft,
    BitVec.getLsbD_setWidth]
  by_cases h1 : lo ≤ n
  · by_cases h2 : n < lo + len
    · have h3 : n - lo < len := by omega
      have h4 : n - lo < 32 := by omega
      have h5 : ¬ n < lo := by omega
      simp [hn, h1, h2, h3, h4, h5]
    · have h3 : ¬ n - lo < len := by omega
      have h5 : v.getLsbD (n - lo) = false := BitVec.getLsbD_of_ge v _ (by omega)
      simp [hn, h1, h2, h3, h5]
  · have h5 : n < lo := by omega
    simp [hn, h1, h5]

/-- The same for a bit inside the word, in simp's own spelling. -/
theorem getElem_withBits {len : Nat} (w : Word) (lo : Nat) (v : BitVec len) (n : Nat) (hn : n < 32) :
    (withBits w lo v)[n] = if lo ≤ n ∧ n < lo + len then v.getLsbD (n - lo) else w[n] := by
  rw [← BitVec.getLsbD_eq_getElem, getLsbD_withBits w lo v n hn, BitVec.getLsbD_eq_getElem hn]

/-- Bit n of a field, in simp's own spelling. -/
theorem getElem_bits (w : Word) (lo len n : Nat) (hn : n < len) : (bits w lo len)[n] = w.getLsbD (lo + n) := by
  simp [bits]

/-- Every decoded instruction comes from a word with its row's opcode, funct3 and funct7, and its operands are read as R82 says. -/
theorem decode_ok {w : Word} {i : Instr} (h : decode w = .ok i) :
    (opcode w = 0b0110011 ∧ funct3 w = 0b000 ∧ funct7 w = 0b0000000 ∧ i = .add (rd w) (rs1 w) (rs2 w)) ∨
    (opcode w = 0b0110011 ∧ funct3 w = 0b000 ∧ funct7 w = 0b0100000 ∧ i = .sub (rd w) (rs1 w) (rs2 w)) ∨
    (opcode w = 0b0000011 ∧ funct3 w = 0b010 ∧ i = .lw (rd w) (rs1 w) (immediate w .I)) ∨
    (opcode w = 0b0100011 ∧ funct3 w = 0b010 ∧ i = .sw (rs1 w) (rs2 w) (immediate w .S)) ∨
    (opcode w = 0b1101111 ∧ i = .jal (rd w) (immediate w .J)) ∨
    (opcode w = 0b1100111 ∧ funct3 w = 0b000 ∧ i = .jalr (rd w) (rs1 w) (immediate w .I)) ∨
    (opcode w = 0b1100011 ∧ funct3 w = 0b000 ∧ i = .beq (rs1 w) (rs2 w) (immediate w .B)) ∨
    (opcode w = 0b1100011 ∧ funct3 w = 0b001 ∧ i = .bne (rs1 w) (rs2 w) (immediate w .B)) := by
  unfold decode at h
  split at h
  · split at h
    · cases h; simp_all
    · split at h
      · cases h; simp_all
      · cases h
  · split at h
    · split at h
      · cases h; simp_all
      · cases h
    · split at h
      · split at h
        · cases h; simp_all
        · cases h
      · split at h
        · cases h; simp_all
        · split at h
          · split at h
            · cases h; simp_all
            · cases h
          · split at h
            · split at h
              · cases h; simp_all
              · split at h
                · cases h; simp_all
                · cases h
            · cases h

/-- The one way decoding fails (R83). -/
theorem decode_error {w : Word} {e : DecodeError} (h : decode w = .error e) : e = .invalidInstruction w := by
  unfold decode at h
  repeat' split at h
  all_goals first | (cases h; done) | (cases h; rfl)

/-- Construction admits exactly the well-formed instructions, unchanged. -/
theorem construct_ok {i j : Instr} : construct i = .ok j ↔ i.wf = true ∧ j = i := by
  unfold construct
  split
  · rename_i h; rw [Except.ok.injEq]; exact ⟨fun e => ⟨h, e.symm⟩, fun e => e.2.symm⟩
  · rename_i h; exact ⟨fun e => (nomatch e), fun e => absurd e.1 h⟩

theorem construct_error {i : Instr} {e : EncodeError} :
    construct i = .error e ↔ i.wf = false ∧ e = .unrepresentableImmediate i := by
  unfold construct
  split
  · rename_i h; exact ⟨fun e => (nomatch e), fun e => absurd (h.symm.trans e.1) (by decide)⟩
  · rename_i h; rw [Except.error.injEq]; exact ⟨fun e => ⟨Bool.eq_false_iff.2 h, e.symm⟩, fun e => e.2.symm⟩

/-- encode answers exactly on the well-formed instructions, with the word of R84's equations. -/
theorem encode_ok {i : Instr} {w : Word} : encode i = .ok w ↔ i.wf = true ∧ w = encodeBits i := by
  unfold encode
  cases h : construct i with
  | ok j => obtain ⟨hw, rfl⟩ := construct_ok.1 h; rw [Except.ok.injEq]; exact ⟨fun e => ⟨hw, e.symm⟩, fun e => e.2.symm⟩
  | error e => exact ⟨fun h' => (nomatch h'), fun h' => absurd ((construct_error.1 h).1.symm.trans h'.1) (by decide)⟩

theorem encode_error {i : Instr} {e : EncodeError} :
    encode i = .error e ↔ i.wf = false ∧ e = .unrepresentableImmediate i := by
  rw [← construct_error]
  unfold encode
  cases construct i with
  | ok j => exact ⟨fun h => (nomatch h), fun h => (nomatch h)⟩
  | error _ => simp only [Except.error.injEq]

end Sys2Proof
end

