-- ==== Sys2Proof/Laws/Memory.lean ====
section
/-! SUPPORT. Memory: a read after a write of one byte, and that every memory operation keeps the canonical form. -/

namespace Sys2Proof.Machine

/-- An address below every listed one reads as 0. -/
theorem Memory.read_of_lt (m : Memory) (a : Nat) (h : ∀ c ∈ m, a < c.1) : Memory.read m a = 0#8 := by
  induction m with
  | nil => rfl
  | cons c rest ih =>
    have hc := h c (by simp)
    rw [Memory.read, if_neg (by omega)]
    exact ih fun d hd => h d (by simp [hd])

/-- A byte after one byte is written. -/
theorem Memory.read_write (m : Memory) (hm : Memory.wf m) (a b : Nat) (v : Byte) :
    Memory.read (Memory.write m a v) b = if b = a then v else Memory.read m b := by
  induction m with
  | nil =>
    unfold Memory.write
    split
    · rename_i hv; simp [Memory.read, hv]
    · by_cases hb : b = a
      · subst hb; simp [Memory.read]
      · simp [Memory.read, hb, Ne.symm hb]
  | cons c rest ih =>
    obtain ⟨k, w⟩ := c
    have hrest : Memory.wf rest := ⟨(List.pairwise_cons.1 hm.1).2, fun d hd => hm.2 d (by simp [hd])⟩
    have hlt := (List.pairwise_cons.1 hm.1).1
    unfold Memory.write
    split
    · rename_i hak
      have h0 : Memory.read ((k, w) :: rest) a = 0#8 :=
        Memory.read_of_lt _ _ (by
          intro d hd
          rcases List.mem_cons.1 hd with rfl | hd
          · exact hak
          · exact lt_trans hak (hlt d hd))
      split
      · rename_i hv
        by_cases hb : b = a
        · subst hb; simp [h0, hv]
        · simp [hb]
      · by_cases hb : b = a
        · subst hb; simp [Memory.read]
        · rw [Memory.read, if_neg (Ne.symm hb), if_neg hb]
    · split
      · rename_i _ hak
        subst hak
        have h0 : Memory.read rest a = 0#8 := Memory.read_of_lt _ _ fun d hd => hlt d hd
        split
        · rename_i hv
          by_cases hb : b = a
          · subst hb; simp [h0, hv]
          · rw [if_neg hb, Memory.read, if_neg (Ne.symm hb)]
        · by_cases hb : b = a
          · subst hb; simp [Memory.read]
          · simp [Memory.read, hb, Ne.symm hb]
      · rename_i _ hak
        simp only [Memory.read, ih hrest]
        by_cases hk : k = b
        · subst hk
          rw [if_pos rfl, if_neg (Ne.symm hak), if_pos rfl]
        · simp [hk]

/-- Where a written memory's cells come from. -/
theorem Memory.mem_write {m : Memory} {a : Nat} {v : Byte} {c : Host.Cell} (h : c ∈ Memory.write m a v) :
    c = (a, v) ∧ v ≠ 0#8 ∨ c ∈ m := by
  induction m with
  | nil =>
    unfold Memory.write at h
    split at h
    · cases h
    · exact .inl ⟨by simpa using h, ‹_›⟩
  | cons d rest ih =>
    obtain ⟨k, w⟩ := d
    unfold Memory.write at h
    split at h
    · split at h
      · exact .inr h
      · rcases List.mem_cons.1 h with h | h
        · exact .inl ⟨h, ‹_›⟩
        · exact .inr h
    · split at h
      · split at h
        · exact .inr (by simp [h])
        · rcases List.mem_cons.1 h with h | h
          · exact .inl ⟨h, ‹_›⟩
          · exact .inr (by simp [h])
      · rcases List.mem_cons.1 h with h | h
        · exact .inr (by simp [h])
        · exact (ih h).imp id fun h => by simp [h]

/-- Writing a byte keeps the canonical form. -/
theorem Memory.wf_write {m : Memory} (hm : Memory.wf m) (a : Nat) (v : Byte) : Memory.wf (Memory.write m a v) := by
  refine ⟨?_, fun c hc => ?_⟩
  · induction m with
    | nil => unfold Memory.write; split <;> simp
    | cons d rest ih =>
      obtain ⟨k, w⟩ := d
      have hrest : Memory.wf rest := ⟨(List.pairwise_cons.1 hm.1).2, fun d hd => hm.2 d (by simp [hd])⟩
      have hlt := (List.pairwise_cons.1 hm.1).1
      unfold Memory.write
      split
      · rename_i hak
        split
        · exact hm.1
        · refine List.pairwise_cons.2 ⟨fun c hc => ?_, hm.1⟩
          rcases List.mem_cons.1 hc with rfl | hc
          · exact hak
          · exact lt_trans hak (hlt c hc)
      · split
        · rename_i _ hak
          subst hak
          split
          · exact hrest.1
          · exact List.pairwise_cons.2 ⟨fun c hc => hlt c hc, hrest.1⟩
        · rename_i h1 h2
          refine List.pairwise_cons.2 ⟨fun c hc => ?_, ih hrest⟩
          rcases Memory.mem_write hc with ⟨rfl, -⟩ | hc
          · show k < a; omega
          · exact hlt c hc
  · rcases Memory.mem_write hc with ⟨rfl, hv⟩ | hc
    · exact hv
    · exact hm.2 c hc

/-- Writing a byte below n lists nothing at or past n. -/
theorem Memory.below_write {m : Memory} {n : Nat} (hm : Memory.below m n) {a : Nat} (ha : a < n) (v : Byte) :
    Memory.below (Memory.write m a v) n := fun c hc => by
  rcases Memory.mem_write hc with ⟨rfl, -⟩ | hc
  · exact ha
  · exact hm c hc

/-- MemWrite keeps the canonical form. -/
theorem Memory.wf_writeWord {m : Memory} (hm : Memory.wf m) (a : Nat) (v : Word) : Memory.wf (Memory.writeWord m a v) :=
  Memory.wf_write (Memory.wf_write (Memory.wf_write (Memory.wf_write hm _ _) _ _) _ _) _ _

/-- MemWrite inside the first n bytes lists nothing at or past n. -/
theorem Memory.below_writeWord {m : Memory} {n : Nat} (hm : Memory.below m n) {a : Nat} (ha : a + 3 < n) (v : Word) :
    Memory.below (Memory.writeWord m a v) n :=
  Memory.below_write (Memory.below_write (Memory.below_write (Memory.below_write hm (by omega) _) (by omega) _)
    (by omega) _) (by omega) _

/-- An image lists cells from its first address on only. -/
theorem Memory.mem_ofBytes {image : List Byte} {a : Nat} {c : Host.Cell} (h : c ∈ Memory.ofBytes a image) :
    a ≤ c.1 ∧ c.1 < a + image.length ∧ c.2 ≠ 0#8 := by
  induction image generalizing a with
  | nil => cases h
  | cons b rest ih =>
    unfold Memory.ofBytes at h
    split at h
    · have := ih h; simp only [List.length_cons]; exact ⟨by omega, by omega, this.2.2⟩
    · rcases List.mem_cons.1 h with rfl | h
      · simp only [List.length_cons]; exact ⟨le_refl _, by omega, ‹_›⟩
      · have := ih h; simp only [List.length_cons]; exact ⟨by omega, by omega, this.2.2⟩

/-- A loaded image is in canonical form. -/
theorem Memory.wf_ofBytes (a : Nat) (image : List Byte) : Memory.wf (Memory.ofBytes a image) := by
  refine ⟨?_, fun c hc => (Memory.mem_ofBytes hc).2.2⟩
  induction image generalizing a with
  | nil => simp [Memory.ofBytes]
  | cons b rest ih =>
    unfold Memory.ofBytes
    split
    · exact ih _
    · refine List.pairwise_cons.2 ⟨fun c hc => ?_, ih _⟩
      have := (Memory.mem_ofBytes hc).1
      show a < c.1
      omega

/-- The memory of a launch is in canonical form. -/
theorem Memory.wf_launch (l : Launch) : Memory.wf (State.launch l).mem :=
  ⟨List.Pairwise.nil, fun _ h => by cases h⟩

/-- The memory of State.reset is in canonical form. -/
theorem Memory.wf_reset : Memory.wf State.reset.mem := Memory.wf_launch _

end Sys2Proof.Machine
end

