-- ==== Sys2Proof/Laws/State.lean ====
section
/-! SUPPORT. The fields of an updated state, one lemma per field per update, and register reads after them. -/

namespace Sys2Proof.Machine

section
variable (s : State) (t : Addr) (m : Memory) (i j : RegIdx) (v : Word) (e : MachineError) (l : Launch)

@[simp] theorem State.setPc_x : (s.setPc t).x = s.x := rfl
@[simp] theorem State.setPc_pc : (s.setPc t).pc = t := rfl
@[simp] theorem State.setPc_mem : (s.setPc t).mem = s.mem := rfl
@[simp] theorem State.setPc_params : (s.setPc t).params = s.params := rfl
@[simp] theorem State.setPc_faultRecord : (s.setPc t).faultRecord = s.faultRecord := rfl
@[simp] theorem State.setPc_started : (s.setPc t).started = s.started := rfl
@[simp] theorem State.setPc_readReg : (s.setPc t).readReg j = s.readReg j := rfl

@[simp] theorem State.setMem_x : (s.setMem m).x = s.x := rfl
@[simp] theorem State.setMem_pc : (s.setMem m).pc = s.pc := rfl
@[simp] theorem State.setMem_mem : (s.setMem m).mem = m := rfl
@[simp] theorem State.setMem_params : (s.setMem m).params = s.params := rfl
@[simp] theorem State.setMem_faultRecord : (s.setMem m).faultRecord = s.faultRecord := rfl
@[simp] theorem State.setMem_started : (s.setMem m).started = s.started := rfl
@[simp] theorem State.setMem_readReg : (s.setMem m).readReg j = s.readReg j := rfl

@[simp] theorem State.recordError_x : (s.recordError e).x = s.x := rfl
@[simp] theorem State.recordError_pc : (s.recordError e).pc = s.pc := rfl
@[simp] theorem State.recordError_mem : (s.recordError e).mem = s.mem := rfl
@[simp] theorem State.recordError_params : (s.recordError e).params = s.params := rfl
@[simp] theorem State.recordError_faultRecord :
    (s.recordError e).faultRecord = some (s.faultRecord.getD e) := rfl
@[simp] theorem State.recordError_started : (s.recordError e).started = s.started := rfl
@[simp] theorem State.recordError_readReg : (s.recordError e).readReg j = s.readReg j := rfl

@[simp] theorem State.begin_x : s.begin.x = s.x := rfl
@[simp] theorem State.begin_pc : s.begin.pc = s.pc := rfl
@[simp] theorem State.begin_mem : s.begin.mem = s.mem := rfl
@[simp] theorem State.begin_params : s.begin.params = s.params := rfl
@[simp] theorem State.begin_faultRecord : s.begin.faultRecord = s.faultRecord := rfl
@[simp] theorem State.begin_started : s.begin.started = true := rfl
@[simp] theorem State.begin_readReg : s.begin.readReg j = s.readReg j := rfl

@[simp] theorem State.writeReg_pc : (s.writeReg i v).pc = s.pc := by unfold State.writeReg; split <;> rfl
@[simp] theorem State.writeReg_mem : (s.writeReg i v).mem = s.mem := by unfold State.writeReg; split <;> rfl
@[simp] theorem State.writeReg_params : (s.writeReg i v).params = s.params := by
  unfold State.writeReg; split <;> rfl
@[simp] theorem State.writeReg_faultRecord : (s.writeReg i v).faultRecord = s.faultRecord := by
  unfold State.writeReg; split <;> rfl
@[simp] theorem State.writeReg_started : (s.writeReg i v).started = s.started := by
  unfold State.writeReg; split <;> rfl
@[simp] theorem State.writeReg_zero : s.writeReg 0#5 v = s := rfl
@[simp] theorem State.readReg_zero : s.readReg 0#5 = 0#32 := rfl

@[simp] theorem State.launch_x : (State.launch l).x = l.regInit.set 0 0#32 := rfl
@[simp] theorem State.launch_pc : (State.launch l).pc = l.pcInit := rfl
@[simp] theorem State.launch_mem : (State.launch l).mem = [] := rfl
@[simp] theorem State.launch_params : (State.launch l).params = l.params := rfl
@[simp] theorem State.launch_faultRecord : (State.launch l).faultRecord = none := rfl
@[simp] theorem State.launch_started : (State.launch l).started = false := rfl

end

/-- Two register indices with the same number are the same index. -/
theorem regIdx_ext {i j : RegIdx} (h : i.toNat = j.toNat) : i = j := BitVec.eq_of_toNat_eq h

/-- X after a register write, slot by slot (10_state.md R24). -/
theorem State.writeReg_x_get (s : State) (i : RegIdx) (v : Word) (n : Nat) (h : n < 32) :
    (s.writeReg i v).x[n] = if n = i.toNat ∧ i ≠ 0#5 then v else s.x[n] := by
  unfold State.writeReg
  by_cases hi : i = 0#5
  · simp [hi]
  · by_cases hn : n = i.toNat
    · subst hn; simp [hi]
    · simp [hi, hn, Ne.symm hn]

/-- A read of the register just written. -/
theorem State.readReg_writeReg_same (s : State) (i : RegIdx) (v : Word) (h : i ≠ 0#5) :
    (s.writeReg i v).readReg i = v := by
  simp [State.readReg, h, State.writeReg_x_get]

/-- A read of another register. -/
theorem State.readReg_writeReg_ne (s : State) (i j : RegIdx) (v : Word) (h : j ≠ i) :
    (s.writeReg i v).readReg j = s.readReg j := by
  unfold State.readReg
  split
  · rfl
  · rw [State.writeReg_x_get, if_neg]
    rintro ⟨hn, -⟩
    exact h (regIdx_ext hn)

end Sys2Proof.Machine
end

