-- ==== Sys2Proof/Laws/Ops.lean ====
section
/-! SUPPORT. One lemma per shared operation that says everything it can do, and one per meaning that says when it answers a next state and when an error. -/

namespace Sys2Proof.Machine

/-! Shared operations. -/

@[simp] theorem raise_ne_next (e : MachineError) (s t : State) : raise e s ≠ .next t := by simp [raise]

@[simp] theorem raise_ne_refused (e : MachineError) (s : State) (r : Refusal) : raise e s ≠ .refused r := by simp [raise]

theorem raise_eq_fault {e e' : MachineError} {s t : State} :
    raise e s = .fault (.err e' t) ↔ e' = e ∧ t = s.recordError e := by
  simp only [raise, Host.Outcome.fault.injEq, Fault.err.injEq]
  exact ⟨fun h => ⟨h.1.symm, h.2.symm⟩, fun h => ⟨h.1.symm, h.2.symm⟩⟩

section
variable {α : Type} {r : Except MachineError α} {s t : State} {k : α → Host.Outcome State Fault Refusal} {e : MachineError}

theorem proceed_next : proceed r s k = .next t ↔ ∃ a, r = .ok a ∧ k a = .next t := by
  cases r <;> simp [proceed]

theorem proceed_fault :
    proceed r s k = .fault (.err e t) ↔
      (r = .error e ∧ t = s.recordError e) ∨ ∃ a, r = .ok a ∧ k a = .fault (.err e t) := by
  cases r with
  | ok a => simp [proceed]
  | error e' =>
    simp only [proceed, raise_eq_fault, Except.error.injEq, reduceCtorEq, false_and, exists_false, or_false]
    exact ⟨fun h => ⟨h.1.symm, h.1 ▸ h.2⟩, fun h => ⟨h.1.symm, h.1 ▸ h.2⟩⟩

theorem proceed_refused {q : Refusal} : proceed r s k = .refused q ↔ ∃ a, r = .ok a ∧ k a = .refused q := by
  cases r <;> simp [proceed]

end

section
variable {k : ImmKind} {imm : Word} {out : Host.Outcome State Fault Refusal}

theorem whenRepresentable_next {t : State} :
    whenRepresentable k imm out = .next t ↔ representable k imm = true ∧ out = .next t := by
  unfold whenRepresentable; split <;> simp_all

theorem whenRepresentable_fault {f : Fault} :
    whenRepresentable k imm out = .fault f ↔ representable k imm = true ∧ out = .fault f := by
  unfold whenRepresentable; split <;> simp_all

theorem whenRepresentable_refused {q : Refusal} :
    whenRepresentable k imm out = .refused q ↔
      (representable k imm = false ∧ q = .unrepresentableImmediate) ∨ (representable k imm = true ∧ out = .refused q) := by
  unfold whenRepresentable
  split <;> rename_i h
  · simp [h]
  · simp only [Host.Outcome.refused.injEq, Bool.eq_false_iff.2 h, true_and, Bool.false_eq_true, false_and, or_false]
    exact eq_comm

end

theorem checkAccess_ok {s : State} {kind : AccessKind} {a : Word} :
    checkAccess s kind a = .ok () ↔
      a.toNat + 3 < s.params.memSize ∧ (s.params.misaligned = .bytewise ∨ a.toNat % 4 = 0) := by
  unfold checkAccess inRange
  cases hm : s.params.misaligned <;> by_cases h : a.toNat + 3 < s.params.memSize <;>
    by_cases h4 : a.toNat % 4 = 0 <;> simp [h, h4]

theorem checkAccess_error {s : State} {kind : AccessKind} {a : Word} {e : MachineError} :
    checkAccess s kind a = .error e ↔
      (s.params.memSize ≤ a.toNat + 3 ∧ e = .memoryRangeFault kind a) ∨
      (a.toNat + 3 < s.params.memSize ∧ s.params.misaligned = .fault ∧ a.toNat % 4 ≠ 0 ∧ e = .misalignedFault kind a) := by
  unfold checkAccess inRange
  cases hm : s.params.misaligned <;> by_cases h : a.toNat + 3 < s.params.memSize <;>
    by_cases h4 : a.toNat % 4 = 0 <;> simp [h, h4, eq_comm] <;> omega

theorem narrowPc_ok {s : State} {t : Word} {npc : Addr} :
    narrowPc s t = .ok npc ↔ (s.params.pcOverflow = .wrap ∨ t.toNat < 1048576) ∧ npc = t.setWidth 20 := by
  unfold narrowPc
  cases hp : s.params.pcOverflow <;> by_cases h : t.toNat < 1048576 <;> simp [h, eq_comm]

theorem narrowPc_error {s : State} {t : Word} {e : MachineError} :
    narrowPc s t = .error e ↔ s.params.pcOverflow = .fault ∧ 1048576 ≤ t.toNat ∧ e = .pcRangeFault t := by
  unfold narrowPc
  cases hp : s.params.pcOverflow <;> by_cases h : t.toNat < 1048576 <;> (simp [h, eq_comm]; try omega)

/-- The sequential pc is pc + 4 in 20 bits wherever it is answered (40_cycle.md R116). -/
theorem seqPc_ok {s : State} {npc : Addr} :
    seqPc s = .ok npc ↔ (s.params.pcOverflow = .wrap ∨ s.pc.toNat + 4 < 1048576) ∧ npc = s.pc + 4#20 := by
  have h32 : (s.pc.setWidth 32 + 4#32 : Word).toNat = s.pc.toNat + 4 := by
    have := s.pc.isLt
    simp [BitVec.toNat_add, BitVec.toNat_setWidth]; omega
  have h20 : (s.pc.setWidth 32 + 4#32 : Word).setWidth 20 = s.pc + 4#20 := by
    apply BitVec.eq_of_toNat_eq
    rw [BitVec.toNat_setWidth, h32]; simp [BitVec.toNat_add]
  rw [seqPc, narrowPc_ok, h32, h20]

theorem seqPc_error {s : State} {e : MachineError} :
    seqPc s = .error e ↔
      s.params.pcOverflow = .fault ∧ 1048576 ≤ s.pc.toNat + 4 ∧ e = .pcRangeFault (s.pc.setWidth 32 + 4#32) := by
  have h32 : (s.pc.setWidth 32 + 4#32 : Word).toNat = s.pc.toNat + 4 := by
    have := s.pc.isLt
    simp [BitVec.toNat_add, BitVec.toNat_setWidth]; omega
  rw [seqPc, narrowPc_error, h32]

theorem fetchWord_ok {s : State} {w : Word} :
    fetchWord s = .ok w ↔
      checkAccess s .fetch (s.pc.setWidth 32) = .ok () ∧ w = Memory.readWord s.mem s.pc.toNat := by
  unfold fetchWord
  cases h : checkAccess s .fetch (s.pc.setWidth 32) <;> simp [eq_comm]

theorem fetchWord_error {s : State} {e : MachineError} :
    fetchWord s = .error e ↔ checkAccess s .fetch (s.pc.setWidth 32) = .error e := by
  unfold fetchWord
  cases h : checkAccess s .fetch (s.pc.setWidth 32) <;> simp

theorem decodeFetched_ok {w : Word} {i : Instr} : decodeFetched w = .ok i ↔ decode w = .ok i := by
  unfold decodeFetched; cases h : decode w <;> simp

theorem decodeFetched_error {w : Word} {e : MachineError} :
    decodeFetched w = .error e ↔ e = .invalidInstruction w ∧ ∃ d, decode w = .error d := by
  unfold decodeFetched; cases h : decode w <;> simp [eq_comm]

theorem fetchInstr_ok {s : State} {i : Instr} :
    fetchInstr s = .ok i ↔ ∃ w, fetchWord s = .ok w ∧ decode w = .ok i := by
  unfold fetchInstr; cases h : fetchWord s <;> simp [decodeFetched_ok]

theorem fetchInstr_error {s : State} {e : MachineError} :
    fetchInstr s = .error e ↔
      fetchWord s = .error e ∨ ∃ w, fetchWord s = .ok w ∧ e = .invalidInstruction w ∧ ∃ d, decode w = .error d := by
  unfold fetchInstr; cases h : fetchWord s <;> simp [decodeFetched_error]

/-! Meanings. -/

theorem execAlu_next {d : RegIdx} {r : Word} {s t : State} :
    execAlu d r s = .next t ↔ ∃ npc, seqPc s = .ok npc ∧ t = (s.writeReg d r).setPc npc := by
  rw [execAlu, proceed_next]
  simp only [Host.Outcome.next.injEq, eq_comm (a := t)]

theorem execAlu_fault {d : RegIdx} {r : Word} {s t : State} {e : MachineError} :
    execAlu d r s = .fault (.err e t) ↔ seqPc s = .error e ∧ t = s.recordError e := by
  simp [execAlu, proceed_fault]

theorem withAccess_next {kind : AccessKind} {ea : Word} {s t : State} {k : Addr → Host.Outcome State Fault Refusal} :
    withAccess kind ea s k = .next t ↔ checkAccess s kind ea = .ok () ∧ ∃ npc, seqPc s = .ok npc ∧ k npc = .next t := by
  simp only [withAccess, proceed_next]
  exact ⟨fun ⟨⟨⟩, h⟩ => h, fun h => ⟨(), h⟩⟩

theorem withAccess_fault {kind : AccessKind} {ea : Word} {s t : State} {k : Addr → Host.Outcome State Fault Refusal}
    {e : MachineError} :
    withAccess kind ea s k = .fault (.err e t) ↔
      (checkAccess s kind ea = .error e ∧ t = s.recordError e) ∨
      (checkAccess s kind ea = .ok () ∧ seqPc s = .error e ∧ t = s.recordError e) ∨
      (checkAccess s kind ea = .ok () ∧ ∃ npc, seqPc s = .ok npc ∧ k npc = .fault (.err e t)) := by
  simp only [withAccess, proceed_fault]
  constructor
  · rintro (h | ⟨⟨⟩, h, h' | h'⟩)
    · exact .inl h
    · exact .inr (.inl ⟨h, h'⟩)
    · exact .inr (.inr ⟨h, h'⟩)
  · rintro (h | ⟨h, h'⟩ | ⟨h, h'⟩)
    · exact .inl h
    · exact .inr ⟨(), h, .inl h'⟩
    · exact .inr ⟨(), h, .inr h'⟩

theorem execLw_next {d base : RegIdx} {imm : Word} {s t : State} :
    execLw d base imm s = .next t ↔
      representable .I imm = true ∧ checkAccess s .load (effectiveAddress s base imm) = .ok () ∧ ∃ npc, seqPc s = .ok npc ∧
        t = (s.writeReg d (Memory.readWord s.mem (effectiveAddress s base imm).toNat)).setPc npc := by
  rw [execLw, whenRepresentable_next, withAccess_next]
  simp only [Host.Outcome.next.injEq, eq_comm (a := t)]

theorem execLw_fault {d base : RegIdx} {imm : Word} {s t : State} {e : MachineError} :
    execLw d base imm s = .fault (.err e t) ↔
      representable .I imm = true ∧ t = s.recordError e ∧
        (checkAccess s .load (effectiveAddress s base imm) = .error e ∨
          (checkAccess s .load (effectiveAddress s base imm) = .ok () ∧ seqPc s = .error e)) := by
  simp only [execLw, whenRepresentable_fault, withAccess_fault, reduceCtorEq, and_false, exists_const, or_false]
  tauto

theorem execSw_next {base src : RegIdx} {imm : Word} {s t : State} :
    execSw base src imm s = .next t ↔
      representable .S imm = true ∧ checkAccess s .store (effectiveAddress s base imm) = .ok () ∧ ∃ npc, seqPc s = .ok npc ∧
        t = (s.setMem (Memory.writeWord s.mem (effectiveAddress s base imm).toNat (s.readReg src))).setPc npc := by
  rw [execSw, whenRepresentable_next, withAccess_next]
  simp only [Host.Outcome.next.injEq, eq_comm (a := t)]

theorem execSw_fault {base src : RegIdx} {imm : Word} {s t : State} {e : MachineError} :
    execSw base src imm s = .fault (.err e t) ↔
      representable .S imm = true ∧ t = s.recordError e ∧
        (checkAccess s .store (effectiveAddress s base imm) = .error e ∨
          (checkAccess s .store (effectiveAddress s base imm) = .ok () ∧ seqPc s = .error e)) := by
  simp only [execSw, whenRepresentable_fault, withAccess_fault, reduceCtorEq, and_false, exists_const, or_false]
  tauto

theorem execJal_next {d : RegIdx} {imm : Word} {s t : State} :
    execJal d imm s = .next t ↔
      representable .J imm = true ∧ t = (s.writeReg d (linkValue s)).setPc (jalTarget s imm) := by
  rw [execJal, whenRepresentable_next, Host.Outcome.next.injEq, eq_comm (a := t)]

theorem execJal_fault {d : RegIdx} {imm : Word} {s : State} {f : Fault} : execJal d imm s ≠ .fault f := by
  simp [execJal, whenRepresentable_fault]

theorem execJalr_next {d base : RegIdx} {imm : Word} {s t : State} :
    execJalr d base imm s = .next t ↔
      representable .I imm = true ∧ (jalrCandidate (jalrReadState s d) base imm).toNat < 1048576 ∧
        t = (s.writeReg d (linkValue s)).setPc ((jalrCandidate (jalrReadState s d) base imm).setWidth 20) := by
  rw [execJalr, whenRepresentable_next]
  refine and_congr_right fun _ => ?_
  dsimp only
  split <;> rename_i h
  · exact ⟨fun ht => absurd ht (raise_ne_next _ _ _), fun ht => absurd ht.1 (by omega)⟩
  · rw [Host.Outcome.next.injEq, eq_comm]; exact ⟨fun ht => ⟨by omega, ht⟩, fun ht => ht.2⟩

theorem execJalr_fault {d base : RegIdx} {imm : Word} {s t : State} {e : MachineError} :
    execJalr d base imm s = .fault (.err e t) ↔
      representable .I imm = true ∧ 1048576 ≤ (jalrCandidate (jalrReadState s d) base imm).toNat ∧
        e = .addressRangeError (jalrCandidate (jalrReadState s d) base imm) ∧ t = (jalrReadState s d).recordError e := by
  rw [execJalr, whenRepresentable_fault]
  refine and_congr_right fun _ => ?_
  dsimp only
  split <;> rename_i h
  · rw [raise_eq_fault]; exact ⟨fun ⟨h1, h2⟩ => ⟨h, h1, by rw [h2, h1]⟩, fun ⟨_, h1, h2⟩ => ⟨h1, by rw [h2, h1]⟩⟩
  · exact ⟨fun ht => (by cases ht), fun ht => absurd ht.1 (by omega)⟩

theorem execBranch_next {taken : Bool} {imm : Word} {s t : State} :
    execBranch taken imm s = .next t ↔
      representable .B imm = true ∧ ∃ npc, (if taken then branchTarget s imm else seqPc s) = .ok npc ∧ t = s.setPc npc := by
  rw [execBranch, whenRepresentable_next, proceed_next]
  simp only [Host.Outcome.next.injEq, eq_comm (a := t)]

theorem execBranch_fault {taken : Bool} {imm : Word} {s t : State} {e : MachineError} :
    execBranch taken imm s = .fault (.err e t) ↔
      representable .B imm = true ∧ (if taken then branchTarget s imm else seqPc s) = .error e ∧ t = s.recordError e := by
  simp [execBranch, whenRepresentable_fault, proceed_fault]

/-! The tick. -/

theorem step_next {s t : State} : step s = .next t ↔ ∃ i, fetchInstr s.begin = .ok i ∧ exec i s.begin = .next t := by
  unfold step; cases h : fetchInstr s.begin <;> simp

theorem step_fault {s t : State} {e : MachineError} :
    step s = .fault (.err e t) ↔
      (fetchInstr s.begin = .error e ∧ t = s.begin.recordError e) ∨
      ∃ i, fetchInstr s.begin = .ok i ∧ exec i s.begin = .fault (.err e t) := by
  unfold step
  cases h : fetchInstr s.begin with
  | ok i => simp
  | error e' =>
    simp only [raise_eq_fault, Except.error.injEq, reduceCtorEq, false_and, exists_false, or_false]
    exact ⟨fun h => ⟨h.1.symm, h.1 ▸ h.2⟩, fun h => ⟨h.1.symm, h.1 ▸ h.2⟩⟩

end Sys2Proof.Machine
end

