-- ==== Sys2Proof/Laws/PerInstr.lean ====
section
/-! SUPPORT. Statements made per instruction. EncodeRow: the encoder writes the fixed bits of the instruction's row of the opcode map (spec/30_encoding.md R84, R87), whatever the operands. -/

namespace Sys2Proof.Laws.EncodeRow

/-- The equations of R84 give i the fixed bits of i's row; encode_ok in Laws/Decode.lean makes it a fact about encode. -/
def Statement (i : Instr) : Prop := encodeBits i &&& i.maskBits = i.matchBits

/-- A fixed pattern under a mask, bit by bit. -/
theorem masked_eq {w mask pat : Word}
    (h : ∀ n, n < 32 → (w.getLsbD n && mask.getLsbD n) = pat.getLsbD n) : w &&& mask = pat := by
  apply BitVec.eq_of_getLsbD_eq
  intro n hn
  rw [BitVec.getLsbD_and]
  exact h n hn

theorem add (d a b : RegIdx) : Statement (.add d a b) := by
  refine masked_eq fun n hn => ?_
  interval_cases n <;> simp [encodeBits, withOpcode, withRd, withFunct3, withRs1, withRs2, withFunct7, getElem_withBits, Instr.maskBits, Instr.matchBits]

theorem sub (d a b : RegIdx) : Statement (.sub d a b) := by
  refine masked_eq fun n hn => ?_
  interval_cases n <;> simp [encodeBits, withOpcode, withRd, withFunct3, withRs1, withRs2, withFunct7, getElem_withBits, Instr.maskBits, Instr.matchBits]

theorem lw (d a : RegIdx) (imm : Word) : Statement (.lw d a imm) := by
  refine masked_eq fun n hn => ?_
  interval_cases n <;> simp [encodeBits, withOpcode, withRd, withFunct3, withRs1, withImmediate, getElem_withBits, Instr.maskBits, Instr.matchBits]

theorem sw (a b : RegIdx) (imm : Word) : Statement (.sw a b imm) := by
  refine masked_eq fun n hn => ?_
  interval_cases n <;> simp [encodeBits, withOpcode, withFunct3, withRs1, withRs2, withImmediate, getElem_withBits, Instr.maskBits, Instr.matchBits]

theorem jal (d : RegIdx) (imm : Word) : Statement (.jal d imm) := by
  refine masked_eq fun n hn => ?_
  interval_cases n <;> simp [encodeBits, withOpcode, withRd, withImmediate, getElem_withBits, Instr.maskBits, Instr.matchBits]

theorem jalr (d a : RegIdx) (imm : Word) : Statement (.jalr d a imm) := by
  refine masked_eq fun n hn => ?_
  interval_cases n <;> simp [encodeBits, withOpcode, withRd, withFunct3, withRs1, withImmediate, getElem_withBits, Instr.maskBits, Instr.matchBits]

theorem beq (a b : RegIdx) (imm : Word) : Statement (.beq a b imm) := by
  refine masked_eq fun n hn => ?_
  interval_cases n <;> simp [encodeBits, withOpcode, withFunct3, withRs1, withRs2, withImmediate, getElem_withBits, Instr.maskBits, Instr.matchBits]

theorem bne (a b : RegIdx) (imm : Word) : Statement (.bne a b imm) := by
  refine masked_eq fun n hn => ?_
  interval_cases n <;> simp [encodeBits, withOpcode, withFunct3, withRs1, withRs2, withImmediate, getElem_withBits, Instr.maskBits, Instr.matchBits]

end Sys2Proof.Laws.EncodeRow
end

