-- ==== Sys2Proof/Tests/Slice0.lean ====
section
/-! SUPPORT. Tests on fixed values, all from spec/95_test_vectors.md unless a comment says otherwise, and a witness for the hypotheses of every statement. -/

namespace Sys2Proof.Tests

open Sys2Proof.Machine

/-! Helpers. -/

/-- A state with these parameters, pc, registers and words in memory. -/
def mk (p : Params) (pc : Addr) (regs : List (RegIdx × Word)) (words : List (Nat × Word)) : State :=
  let s : State := State.launch ⟨p, Vector.replicate 32 0, pc⟩
  let s := regs.foldl (fun s r => s.writeReg r.1 r.2) s
  words.foldl (fun s w => s.setMem (Memory.writeWord s.mem w.1 w.2)) s

/-- The default parameters with every choice turned the other way. -/
def strict : Params := ⟨1048576, .wrapping, .readFirst, .fault, .fault⟩

/-- The default parameters (00_scope.md R7). -/
def dflt : Params := Params.default

def nextOf (o : Host.Outcome State Fault Refusal) : Option State :=
  match o with
  | .next t => some t
  | .fault _ => none
  | .refused _ => none

def errOf (o : Host.Outcome State Fault Refusal) : Option (MachineError × State) :=
  match o with
  | .next _ => none
  | .fault (.err e t) => some (e, t)
  | .refused _ => none

/-- The pc and one register after a next state. -/
def pcReg (o : Host.Outcome State Fault Refusal) (i : RegIdx) : Option (Addr × Word) :=
  (nextOf o).map fun t => (t.pc, t.readReg i)

/-- The error, and pc and one register after it. -/
def errPcReg (o : Host.Outcome State Fault Refusal) (i : RegIdx) : Option (MachineError × Addr × Word) :=
  (errOf o).map fun r => (r.1, r.2.pc, r.2.readReg i)

theorem ex_next {o : Host.Outcome State Fault Refusal} (h : (nextOf o).isSome = true) : ∃ t, o = .next t := by
  cases o <;> simp_all [nextOf]

theorem ex_err {o : Host.Outcome State Fault Refusal} {e : MachineError} (h : (errOf o).map (·.1) = some e) :
    ∃ t, o = .fault (.err e t) := by
  cases o with
  | next => simp [errOf] at h
  | fault f => obtain ⟨e', t⟩ := f; simp [errOf] at h; exact ⟨t, by rw [h]⟩
  | refused => simp [errOf] at h

/-! Well-formedness smoke: an ill-formed term for each check, refused (30_encoding.md R85). -/

theorem test_wf_lw : (Instr.lw 1 2 2048).wf = false ∧ (Instr.lw 1 2 2047).wf = true := by decide
theorem test_wf_sw : (Instr.sw 1 2 (BitVec.ofInt 32 (-2049))).wf = false ∧ (Instr.sw 1 2 (BitVec.ofInt 32 (-2048))).wf = true := by decide
theorem test_wf_jal : (Instr.jal 1 3).wf = false ∧ (Instr.jal 1 1048576).wf = false ∧ (Instr.jal 1 1048574).wf = true := by decide
theorem test_wf_jalr : (Instr.jalr 1 2 4096).wf = false ∧ (Instr.jalr 1 2 (BitVec.ofInt 32 (-1))).wf = true := by decide
theorem test_wf_beq : (Instr.beq 1 2 1).wf = false ∧ (Instr.beq 1 2 4096).wf = false ∧ (Instr.beq 1 2 4094).wf = true := by decide
theorem test_wf_bne : (Instr.bne 1 2 (BitVec.ofInt 32 (-4098))).wf = false ∧ (Instr.bne 1 2 (BitVec.ofInt 32 (-4096))).wf = true := by decide
theorem test_wf_params : ¬ ({ dflt with memSize := 3 } : Params).wf ∧ ¬ ({ dflt with memSize := 1048577 } : Params).wf ∧
    ({ dflt with memSize := 4 } : Params).wf := by decide
theorem test_wf_memory : ¬ Memory.wf [(2, 1), (1, 1)] ∧ ¬ Memory.wf [(1, 1), (1, 2)] ∧ ¬ Memory.wf [(1, 0)] ∧
    Memory.wf [(1, 1), (2, 1)] := by decide

/-! Decoding and encoding: words written out bit by bit, field by field as 30_encoding.md R64 to R69 lay them out; their values stand in
section 2.3. -/

/-- funct7 rs2 rs1 funct3 rd opcode. -/
theorem test_decode_add : decode 0b0000000_00010_00001_000_00011_0110011#32 = .ok (.add 3 1 2) := by decide
theorem test_decode_sub : decode 0b0100000_00010_00001_000_00011_0110011#32 = .ok (.sub 3 1 2) := by decide
/-- imm[11:0] rs1 funct3 rd opcode. -/
theorem test_decode_lw : decode 0b111111111100_01010_010_00101_0000011#32 = .ok (.lw 5 10 (BitVec.ofInt 32 (-4))) := by decide
/-- imm[11:5] rs2 rs1 funct3 imm[4:0] opcode. -/
theorem test_decode_sw : decode 0b0000000_01011_01010_010_01000_0100011#32 = .ok (.sw 10 11 8) := by decide
/-- imm[20] imm[10:1] imm[11] imm[19:12] rd opcode. -/
theorem test_decode_jal : decode 0b1_1111110110_1_11111111_00000_1101111#32 = .ok (.jal 0 (BitVec.ofInt 32 (-20))) := by decide
theorem test_decode_jalr : decode 0b111111111111_00101_000_00001_1100111#32 = .ok (.jalr 1 5 (BitVec.ofInt 32 (-1))) := by decide
/-- imm[12] imm[10:5] rs2 rs1 funct3 imm[4:1] imm[11] opcode. -/
theorem test_decode_beq : decode 0b0_000000_00000_00111_000_1100_0_1100011#32 = .ok (.beq 7 0 24) := by decide
theorem test_decode_bne : decode 0b0_111111_11111_11111_001_1111_1_1100011#32 = .ok (.bne 31 31 4094) := by decide

/-- Section 2.3, the extremes, both ways. -/
theorem test_codec_extremes :
    decode 0x8000006F#32 = .ok (.jal 0 (BitVec.ofInt 32 (-1048576))) ∧ decode 0x7FFFF06F#32 = .ok (.jal 0 1048574) ∧
    decode 0x80000063#32 = .ok (.beq 0 0 (BitVec.ofInt 32 (-4096))) ∧ decode 0x0000706F#32 = .ok (.jal 0 0x7000) ∧
    decode 0xFFFFF0EF#32 = .ok (.jal 1 (BitVec.ofInt 32 (-2))) := by decide

theorem test_encode_words :
    encode (.add 31 31 31) = .ok 0x01FF8FB3#32 ∧ encode (.sub 3 1 2) = .ok 0x402081B3#32 ∧ encode (.lw 1 0 0x104) = .ok 0x10402083#32 ∧
    encode (.sw 10 11 (BitVec.ofInt 32 (-4))) = .ok 0xFEB52E23#32 ∧ encode (.jal 1 20) = .ok 0x014000EF#32 ∧
    encode (.jalr 1 5 (BitVec.ofInt 32 (-1))) = .ok 0xFFF280E7#32 ∧ encode (.beq 7 0 24) = .ok 0x00038C63#32 ∧
    encode (.bne 12 0 (BitVec.ofInt 32 (-8))) = .ok 0xFE061CE3#32 := by decide

/-- The values 30_encoding.md R79 gives as ones the raw codec would cut: R85 refuses an instruction that holds one. -/
theorem test_encode_refuses :
    encode (.beq 1 2 3) = .error (.unrepresentableImmediate (.beq 1 2 3)) ∧
    encode (.lw 1 2 4096) = .error (.unrepresentableImmediate (.lw 1 2 4096)) ∧
    encode (.jalr 1 2 2048) = .error (.unrepresentableImmediate (.jalr 1 2 2048)) := by decide

/-- Section 2.4. -/
theorem test_invalid_words :
    ([0x0000007F, 0xFFFFFFFF, 0x00000000, 0x00000001, 0x02000033, 0x20000033, 0x00001033, 0x40001033, 0x00003003, 0x00001023,
      0x00001067, 0x00002063, 0x00004063, 0x00000013, 0x00002013, 0x00000037, 0x00000017, 0x00000073, 0x00100073,
      0x0000000F] : List Word).all (fun w => decode w == .error (.invalidInstruction w)) = true := by decide

/-- Section 2.1: one row per group. -/
theorem test_immediate_groups :
    ([0xFFFFFFFF, 0x80000000, 0x7FFFFFFF, 0x00000080, 0x00000F00] : List Word).map (fun w => (immediate w .I, immediate w .S, immediate w .B, immediate w .U, immediate w .J)) =
      [(0xFFFFFFFF, 0xFFFFFFFF, 0xFFFFFFFE, 0xFFFFF000, 0xFFFFFFFE), (0xFFFFF800, 0xFFFFF800, 0xFFFFF000, 0x80000000, 0xFFF00000),
       (0x7FF, 0x7FF, 0xFFE, 0x7FFFF000, 0xFFFFE), (0, 1, 0x800, 0, 0), (0, 0x1E, 0x1E, 0, 0)] := by decide
theorem test_immediate_groups_high :
    ([0x7E000000, 0x01E00000, 0x00100000, 0x000FF000] : List Word).map (fun w => (immediate w .I, immediate w .S, immediate w .B, immediate w .U, immediate w .J)) =
      [(0x7E0, 0x7E0, 0x7E0, 0x7E000000, 0x7E0), (0x1E, 0, 0, 0x01E00000, 0x1E), (1, 0, 0, 0x00100000, 0x800),
       (0, 0, 0, 0x000FF000, 0x000FF000)] := by decide

/-- Section 2.2: insertion, owned bits, and the unrepresentable values read back. -/
theorem test_insertion :
    withImmediate 0 2047 .I = 0x7FF00000 ∧ withImmediate 0 2047 .S = 0x7E000F80 ∧ withImmediate 0 2048 .B = 0x00000080 ∧
    withImmediate 0 4094 .B = 0x7E000F80 ∧ withImmediate 0 0x12345000 .U = 0x12345000 ∧ withImmediate 0 2048 .J = 0x00100000 ∧
    withImmediate 0 1048574 .J = 0x7FFFF000 ∧ withImmediate 0 0x7F000 .J = 0x7F000 := by decide
theorem test_insertion_owned :
    withImmediate 0xFFFFFFFF 0 .I = 0x000FFFFF ∧ withImmediate 0xFFFFFFFF 0 .S = 0x01FFF07F ∧
    withImmediate 0xFFFFFFFF 0 .B = 0x01FFF07F ∧ withImmediate 0xFFFFFFFF 0 .U = 0x00000FFF ∧
    withImmediate 0xFFFFFFFF 0 .J = 0x00000FFF := by decide
theorem test_insertion_drops :
    immediate (withImmediate 0 3 .B) .B = 2 ∧ immediate (withImmediate 0 4096 .I) .I = 0 ∧
    immediate (withImmediate 0 2048 .I) .I = 0xFFFFF800 := by decide

/-- Byte order and short input (section 2.3, 30_encoding.md R60). -/
theorem test_decode_bytes : decodeBytes [0x00, 0x20, 0x81, 0xB3, 0x7F] = .ok (.add 3 1 2, [0x7F]) ∧
    decodeBytes [0x00, 0x20, 0x81] = .error (.truncated [0x00, 0x20, 0x81]) := by decide
theorem test_wordBytes : wordBytes 0x002081B3 = [0x00, 0x20, 0x81, 0xB3] := by decide

/-- No word matches two rows of the opcode map (30_encoding.md R87). -/
theorem test_rows_do_not_overlap :
    opcodeRows.Pairwise (fun r q => (r.1 ^^^ q.1) &&& r.2 &&& q.2 ≠ 0) := by decide

/-- The text form (30_encoding.md R90). -/
theorem test_text : instrText (.sw 10 11 (BitVec.ofInt 32 (-4))) = "sw x11, -4(x10)" := by decide

/-! One step of each instruction, sections 2.5 to 2.7. -/

theorem test_add_saturates : pcReg (exec (.add 3 1 2) (mk dflt 0x40 [(1, 0xFFFFFFFF), (2, 1)] [])) 3 = some (0x44, 0xFFFFFFFF) := by decide
theorem test_add_wraps : pcReg (exec (.add 3 1 2) (mk { dflt with arithMode := .wrapping } 0xFFFFC [(1, 0xFFFFFFFF), (2, 1)] [])) 3 = some (0, 0) := by decide
theorem test_sub_clamps : pcReg (exec (.sub 4 0 5) (mk dflt 0x40 [(5, 7)] [])) 4 = some (0x44, 0) := by decide
theorem test_sub_wraps : pcReg (exec (.sub 4 0 5) (mk strict 0x40 [(5, 7)] [])) 4 = some (0x44, 0xFFFFFFF9) := by decide
theorem test_lw_base_overwritten : pcReg (exec (.lw 10 10 4) (mk dflt 0 [(10, 0x100)] [(0x100, 0x11223344), (0x104, 0x55667788)])) 10 = some (4, 0x55667788) := by decide
theorem test_lw_bytewise : pcReg (exec (.lw 5 10 1) (mk dflt 0 [(10, 0x100)] [(0x100, 0x11223344), (0x104, 0x55667788)])) 5 = some (4, 0x22334455) := by decide
theorem test_sw_bytewise : (nextOf (exec (.sw 10 11 2) (mk dflt 0 [(10, 0x100), (11, 0xAABBCCDD)] [(0x100, 0x11223344), (0x104, 0x55667788)]))).map
    (fun t => (Memory.readWord t.mem 0x100, Memory.readWord t.mem 0x104)) = some (0x1122AABB, 0xCCDD7788) := by decide
theorem test_sw_range : errPcReg (exec (.sw 2 11 0) (mk dflt 0 [(2, 0xFFFFE)] [])) 2 = some (.memoryRangeFault .store 0xFFFFE, 0, 0xFFFFE) := by decide
theorem test_jal_narrows : pcReg (exec (.jal 1 (BitVec.ofInt 32 (-8))) (mk dflt 0 [] [])) 1 = some (0xFFFF8, 4) := by decide
theorem test_jal_link_unnarrowed : pcReg (exec (.jal 1 4) (mk dflt 0xFFFFC [] [])) 1 = some (0, 0x100000) := by decide
theorem test_jalr_orders : pcReg (exec (.jalr 5 5 0) (mk dflt 0x10 [(5, 0x40)] [])) 5 = some (0x14, 0x14) ∧
    pcReg (exec (.jalr 5 5 0) (mk { dflt with jalrOrder := .readFirst } 0x10 [(5, 0x40)] [])) 5 = some (0x40, 0x14) := by decide
theorem test_jalr_range : errPcReg (exec (.jalr 1 2 (BitVec.ofInt 32 (-1))) (mk dflt 0 [] [])) 1 = some (.addressRangeError 0xFFFFFFFE, 0, 4) ∧
    errPcReg (exec (.jalr 1 2 (BitVec.ofInt 32 (-1))) (mk strict 0 [] [])) 1 = some (.addressRangeError 0xFFFFFFFE, 0, 0) := by decide
theorem test_beq_both : pcReg (exec (.beq 7 0 24) (mk dflt 0x10 [] [])) 7 = some (0x28, 0) ∧
    pcReg (exec (.beq 7 0 24) (mk dflt 0x10 [(7, 3)] [])) 7 = some (0x14, 3) := by decide
theorem test_beq_wrap_or_fault : pcReg (exec (.beq 0 0 (BitVec.ofInt 32 (-8))) (mk dflt 0 [] [])) 0 = some (0xFFFF8, 0) ∧
    errPcReg (exec (.beq 0 0 (BitVec.ofInt 32 (-8))) (mk strict 0 [] [])) 0 = some (.pcRangeFault 0xFFFFFFF8, 0, 0) := by decide
theorem test_bne_both : pcReg (exec (.bne 12 0 (BitVec.ofInt 32 (-8))) (mk dflt 0x18 [(12, 1)] [])) 12 = some (0x10, 1) ∧
    pcReg (exec (.bne 12 0 (BitVec.ofInt 32 (-8))) (mk dflt 0x18 [] [])) 12 = some (0x1C, 0) := by decide

/-! The tick and the host, sections 2.8 and 3. -/

theorem test_step_invalid : errPcReg (step (mk dflt 0 [(3, 9)] [(0, 0x7F)])) 3 = some (.invalidInstruction 0x7F, 0, 9) := by decide
theorem test_step_fetch_range : errPcReg (step (mk dflt 0xFFFFD [] [])) 0 = some (.memoryRangeFault .fetch 0xFFFFD, 0xFFFFD, 0) := by decide
theorem test_step_misaligned : pcReg (step (mk dflt 2 [] [(2, 0x014000EF)])) 1 = some (22, 6) ∧
    errPcReg (step (mk strict 2 [] [(2, 0x014000EF)])) 0 = some (.misalignedFault .fetch 2, 2, 0) := by decide
theorem test_step_check_order : errPcReg (step (mk { dflt with pcOverflow := .fault } 0xFFFFC [(2, 0x100000)] [(0xFFFFC, 0x00012083)])) 1 =
    some (.memoryRangeFault .load 0x100000, 0xFFFFC, 0) := by decide
/-- P4 of section 3: the SW at 0x0C and the fetch of what it stored. -/
theorem test_self_modifying : ((nextOf (step (mk dflt 0xC [(4, 0x002081B3)] [(0xC, 0x00402A23)]))).map fun t => decode (Memory.readWord t.mem 0x14)) =
    some (.ok (.add 3 1 2)) := by decide
/-- Reset memory holds zeros, and the word 0 is no instruction (section 2.4). -/
theorem test_reset_step : errPcReg (step State.reset) 0 = some (.invalidInstruction 0, 0, 0) := by decide
theorem test_placed_word : pcReg (step (State.reset.withFetchWord 32 0x014000EF)) 1 = some (20, 4) := by decide
theorem test_decodeTableWord : decodeTableWord 32 0x402081B3 = some (.sub 3 1 2) ∧ decodeTableWord 32 0x7F = none := by decide
theorem test_run_stops : (match run 2 (fun p => p == 0) (mk dflt 0x20 [] [(0x20, 0x0000006F)]) with | .outOfFuel t => t.pc == 0x20 | _ => false) = true ∧
    (match run 2 (fun p => p == 0x20) (mk dflt 0x20 [] [(0x20, 0x0000006F)]) with | .ok t => t.pc == 0x20 | _ => false) = true := by decide
theorem test_host_reads : hostReadBytes (mk dflt 0 [] [(0x100, 0x11223344)]) 0x101 2 = some [0x22, 0x33] ∧
    hostReadBytes (mk dflt 0 [] []) 0xFFFFF 2 = none := by decide

/-! Witnesses: for each statement with hypotheses, a concrete case that meets them, one per clause. -/

/-- A bit next to each field: 7 for opcode, 6 and 12 for rd, 11 and 15 for funct3, 14 and 20 for rs1, 19 and 25 for rs2, 24 for funct7. -/
theorem wit_FieldMutatorLaws : (7, 5) ∈ baseFields ∧ ¬(7 ≤ 6 ∧ 6 < 7 + 5) ∧ ¬(7 ≤ 12 ∧ 12 < 7 + 5) ∧ (7 : Nat) ≤ 7 ∧
    ((6 : Nat) < 7 ∨ 12 ≤ 6) ∧ ((12 : Nat) < 7 ∨ 12 ≤ 12) ∧ ((11 : Nat) < 12 ∨ 15 ≤ 11) ∧ ((15 : Nat) < 12 ∨ 15 ≤ 15) ∧
    ((14 : Nat) < 15 ∨ 20 ≤ 14) ∧ ((20 : Nat) < 15 ∨ 20 ≤ 20) ∧ ((19 : Nat) < 20 ∨ 25 ≤ 19) ∧ ((25 : Nat) < 20 ∨ 25 ≤ 25) ∧
    (24 : Nat) < 25 ∧ (31 : Nat) < 32 := by decide
theorem wit_ImmediateBitPlacement : (0 : Nat) < 32 ∧ (31 : Nat) < 32 := by decide
theorem wit_ImmediateRoundTrip :
    representable .I (BitVec.ofInt 32 (-2048)) = true ∧ representable .S 2047 = true ∧ representable .B (BitVec.ofInt 32 (-4096)) = true ∧
    representable .B 4094 = true ∧ representable .U 0xFFFFF000 = true ∧ representable .J (BitVec.ofInt 32 (-1048576)) = true ∧
    representable .J 1048574 = true := by decide
theorem wit_InsertionTouchesOwnedBitsOnly : ownsBit .I 19 = false ∧ ownsBit .S 12 = false ∧ ownsBit .B 24 = false ∧ ownsBit .U 11 = false ∧ ownsBit .J 11 = false := by decide
theorem wit_DecodeEncodeRoundTrip : (Instr.jal 31 (BitVec.ofInt 32 (-1048576))).wf = true ∧ (Instr.beq 1 2 4094).wf = true ∧
    (Instr.add 1 2 3).wf = true ∧ decode 0x7FFFF06F#32 = .ok (.jal 0 1048574) := by decide
theorem wit_IllFormedIsNotEncoded : (Instr.beq 1 2 3).wf = false ∧ (Instr.sw 1 2 2048).wf = false ∧ (Instr.jal 1 1048576).wf = false ∧
    (Instr.sw 1 2 2047).wf = true ∧ encode (.jal 0 1048574) = .ok 0x7FFFF06F#32 := by decide
theorem wit_DecodedInstructionsAreWellFormed : decode 0x80000063#32 = .ok (.beq 0 0 (BitVec.ofInt 32 (-4096))) := by decide
theorem wit_InvalidWordsChangeNothing : fetchWord (mk dflt 0 [] [(0, 0x7F)]) = .ok 0x7F ∧ (∀ r ∈ opcodeRows, (0x7F : Word) &&& r.2 ≠ r.1) ∧
    decode 0x7F = .error (.invalidInstruction 0x7F) := by
  refine ⟨?_, ?_, ?_⟩
  · decide
  · simp [opcodeRows]
  · decide
theorem wit_MemoryIsBigEndian : Memory.wf (mk dflt 0 [] [(0x100, 0x11223344)]).mem := by decide
theorem wit_MemoryFormIsUnique : Memory.wf [(3, 7)] ∧ Memory.wf (Memory.write [] 3 7) ∧ ∀ a, Memory.read [(3, 7)] a = Memory.read (Memory.write [] 3 7) a :=
  ⟨by decide, by decide, fun _ => rfl⟩

/-- S6: sw x11, 0(x10) then lw x12, 0(x10), with a byte next to the stored word changed in between. -/
theorem wit_LoadReadsBackStore : ∃ s t u r : State, Memory.wf s.mem ∧ (12 : RegIdx) ≠ 0 ∧ exec (.sw 10 11 0) s = .next t ∧
    u.mem ≠ t.mem ∧ (∀ k, k < 4 → Memory.read u.mem ((effectiveAddress s 10 0).toNat + k) =
      Memory.read t.mem ((effectiveAddress s 10 0).toNat + k)) ∧
    effectiveAddress u 10 0 = effectiveAddress s 10 0 ∧ exec (.lw 12 10 0) u = .next r := by
  obtain ⟨t, ht⟩ := ex_next (o := exec (.sw 10 11 0) (mk dflt 0 [(10, 0x300), (11, 0x12345678)] [])) (by decide)
  cases ht
  obtain ⟨r, hr⟩ := ex_next (o := exec (.lw 12 10 0) (mk dflt 4 [(10, 0x300), (11, 0x12345678)] [(0x300, 0x12345678), (0x304, 0xFF000000)]))
    (by decide)
  exact ⟨mk dflt 0 [(10, 0x300), (11, 0x12345678)] [], _, _, r, by decide, by decide, rfl, by decide, by decide, by decide, hr⟩

theorem wit_AddResult : (mk dflt 0xFFFFC [] []).params.pcOverflow = .wrap ∧ (mk strict 0xFFFFB [] []).pc.toNat + 4 < 2 ^ 20 := by decide
theorem wit_SubResult : (mk dflt 0xFFFFF [] []).params.pcOverflow = .wrap ∧ (mk strict 0 [] []).pc.toNat + 4 < 2 ^ 20 := by decide
/-- The last word in range, aligned, under the strict parameters, and a misaligned one under the defaults. -/
theorem wit_LwResult : (0xFFFFC : Nat) = ((mk strict 0 [(2, 0xFFFFC)] []).readReg 2 + 0 : Word).toNat % 2 ^ 32 ∧ representable .I 0 = true ∧
    0xFFFFC + 3 < (mk strict 0 [] []).params.memSize ∧ 0xFFFFC % 4 = 0 ∧ (mk strict 0 [] []).pc.toNat + 4 < 2 ^ 20 ∧
    0xFFFFB + 3 < (mk dflt 0 [] []).params.memSize ∧ (mk dflt 0 [] []).params.misaligned = .bytewise := by decide
theorem wit_SwResult : (0xFFFFC : Nat) = ((mk strict 0 [(2, 0xFFFFC)] []).readReg 2 + 0 : Word).toNat % 2 ^ 32 ∧ representable .S 0 = true ∧
    0xFFFFC + 3 < (mk strict 0 [] []).params.memSize ∧ 0xFFFFC % 4 = 0 ∧ (mk strict 0 [] []).pc.toNat + 4 < 2 ^ 20 ∧
    Memory.wf (mk strict 0 [(2, 0xFFFFC)] []).mem := by decide
theorem wit_JalResult : representable .J (BitVec.ofInt 32 (-1048576)) = true ∧ representable .J 0 = true := by decide
/-- link_first with rd = rs1, and the largest candidate. -/
theorem wit_JalrResult : representable .I 0 = true ∧
    (0x14 : Nat) = ((if (mk dflt 0x10 [] []).params.jalrOrder = .linkFirst ∧ (5 : RegIdx) = 5 ∧ (5 : RegIdx) ≠ 0 then 0x14 else 0) + (0 : Word).toNat) % 2 ^ 32 / 2 * 2 ∧
    (0xFFFFE : Nat) = ((mk strict 0 [(2, 0xFFFFF)] []).readReg 2).toNat % 2 ^ 32 / 2 * 2 ∧ (0xFFFFE : Nat) < 2 ^ 20 := by decide
/-- Targets 0 and 0xFFFFE under PC_OVERFLOW = fault, and the last sequential pc. -/
theorem wit_BeqResult : representable .B (BitVec.ofInt 32 (-8)) = true ∧
    (0 : Int) ≤ (mk strict 8 [] []).pc.toNat + (BitVec.ofInt 32 (-8)).toInt ∧
    ((mk strict 0xFFFFA [] []).pc.toNat : Int) + (4 : Word).toInt < 2 ^ 20 ∧
    (mk strict 8 [] []).readReg 1 = (mk strict 8 [] []).readReg 2 ∧
    (mk strict 0xFFFFB [(1, 1)] []).readReg 1 ≠ (mk strict 0xFFFFB [(1, 1)] []).readReg 2 ∧ (mk strict 0xFFFFB [] []).pc.toNat + 4 < 2 ^ 20 := by decide
theorem wit_BneResult : representable .B (BitVec.ofInt 32 (-8)) = true ∧
    (mk strict 8 [(1, 1)] []).readReg 1 ≠ (mk strict 8 [(1, 1)] []).readReg 2 ∧
    (0 : Int) ≤ (mk strict 8 [] []).pc.toNat + (BitVec.ofInt 32 (-8)).toInt ∧
    (mk strict 8 [] []).readReg 1 = (mk strict 8 [] []).readReg 2 ∧ (mk dflt 0xFFFFF [] []).params.pcOverflow = .wrap := by decide
theorem wit_SaturatingArithmeticLaws : (0 : Word) ≤ 0xFFFFFFFF ∧ (5 : Word) ≤ 5 := by decide
theorem wit_PseudoInstructionsAct : (mk dflt 0xFFFFF [] []).params.pcOverflow = .wrap ∧ (mk strict 0xFFFFB [] []).pc.toNat + 4 < 2 ^ 20 ∧
    (mk dflt 0 [] []).params.arithMode = .saturating := by decide
theorem wit_AluPcRangeFault : (mk strict 0xFFFFC [] []).params.pcOverflow = .fault ∧ 2 ^ 20 ≤ (mk strict 0xFFFFC [] []).pc.toNat + 4 := by decide
/-- ea = MEM_SIZE - 3; ea = 1 under MISALIGNED = fault; an aligned ea at the top pc under PC_OVERFLOW = fault. -/
theorem wit_LoadStoreErrorOrder : representable .I 0 = true ∧ representable .S 0 = true ∧
    (mk dflt 0 [] []).params.memSize ≤ (effectiveAddress (mk dflt 0 [(2, 0xFFFFD)] []) 2 0).toNat + 3 ∧
    (effectiveAddress (mk strict 0 [(2, 1)] []) 2 0).toNat + 3 < (mk strict 0 [] []).params.memSize ∧
    (mk strict 0 [] []).params.misaligned = .fault ∧ (effectiveAddress (mk strict 0 [(2, 1)] []) 2 0).toNat % 4 ≠ 0 ∧
    (effectiveAddress (mk strict 0xFFFFC [(2, 4)] []) 2 0).toNat % 4 = 0 ∧ 2 ^ 20 ≤ (mk strict 0xFFFFC [] []).pc.toNat + 4 := by decide
theorem wit_JalrAddressRangeError : representable .I 0 = true ∧ (mk dflt 0 [] []).params.jalrOrder = .linkFirst ∧
    2 ^ 20 ≤ ((((mk dflt 4 [(5, 0x100000)] []).writeReg 6 8).readReg 5 + 0) &&& 0xFFFFFFFE#32).toNat ∧
    (mk strict 0 [] []).params.jalrOrder = .readFirst ∧ 2 ^ 20 ≤ (((mk strict 4 [(5, 0x100000)] []).readReg 5 + 0) &&& 0xFFFFFFFE#32).toNat := by decide
theorem wit_BranchPcRangeFault : representable .B (BitVec.ofInt 32 (-2)) = true ∧ (mk strict 0 [] []).params.pcOverflow = .fault ∧
    ((mk strict 0 [] []).pc.toNat : Int) + (BitVec.ofInt 32 (-2)).toInt < 0 ∧ (2 ^ 20 : Int) ≤ (mk strict 0xFFFFE [] []).pc.toNat + (2 : Word).toInt ∧
    2 ^ 20 ≤ (mk strict 0xFFFFC [] []).pc.toNat + 4 := by decide
theorem wit_OnlyIllFormedIsRefused : (Instr.beq 1 2 3).wf = false ∧ (Instr.beq 1 2 2).wf = true := by decide
theorem wit_FetchErrorOrder : (mk dflt 0xFFFFD [] []).params.memSize ≤ (mk dflt 0xFFFFD [] []).pc.toNat + 3 ∧
    (mk strict 0xFFFFB [] []).pc.toNat + 3 < (mk strict 0xFFFFB [] []).params.memSize ∧ (mk strict 0xFFFFB [] []).params.misaligned = .fault ∧
    (mk strict 0xFFFFB [] []).pc.toNat % 4 ≠ 0 := by decide
theorem wit_ErrorKindsByInstruction : (∃ t, exec (.add 1 2 3) (mk strict 0xFFFFC [] []) = .fault (.err (.pcRangeFault 0x100000) t)) ∧
    (∃ t, exec (.lw 1 2 0) (mk dflt 0 [(2, 0xFFFFD)] []) = .fault (.err (.memoryRangeFault .load 0xFFFFD) t)) ∧
    (∃ t, exec (.sw 2 1 1) (mk strict 0 [] []) = .fault (.err (.misalignedFault .store 1) t)) ∧
    (∃ t, exec (.jalr 1 2 (BitVec.ofInt 32 (-1))) (mk dflt 0 [] []) = .fault (.err (.addressRangeError 0xFFFFFFFE) t)) ∧
    (∃ t, exec (.beq 0 0 (BitVec.ofInt 32 (-2))) (mk strict 0 [] []) = .fault (.err (.pcRangeFault 0xFFFFFFFE) t)) :=
  ⟨ex_err (by decide), ex_err (by decide), ex_err (by decide), ex_err (by decide), ex_err (by decide)⟩
theorem wit_DefaultParametersRaiseThreeKinds : (mk dflt 0 [] []).params.misaligned = .bytewise ∧ (mk dflt 0 [] []).params.pcOverflow = .wrap ∧
    ∃ t, step (mk dflt 0 [] []) = .fault (.err (.invalidInstruction 0) t) := ⟨rfl, rfl, ex_err (by decide)⟩
/-- P5 of section 3, under link_first: jalr x6, 0(x5) with x5 = 0x100000. -/
theorem wit_ErrorsArePrecise : ∃ t, step (mk dflt 4 [(5, 0x100000)] [(4, 0x00028367)]) = .fault (.err (.addressRangeError 0x100000) t) := ex_err (by decide)
theorem wit_ErrorRepeatsOnNextTick : ∃ t, step (mk dflt 4 [(5, 0x100000)] [(4, 0x00028367)]) = .fault (.err (.addressRangeError 0x100000) t) := ex_err (by decide)
theorem wit_BookkeepingOfTick : (∃ t, step (mk dflt 0 [] [(0, 0x00000033)]) = .next t) ∧ ∃ t, step (mk dflt 0 [] []) = .fault (.err (.invalidInstruction 0) t) :=
  ⟨ex_next (by decide), ex_err (by decide)⟩
theorem wit_RegisterWritingFrame : (∃ t, exec (.add 1 2 3) (mk dflt 0 [] []) = .next t) ∧ (∃ t, exec (.sub 1 2 3) (mk dflt 0 [] []) = .next t) ∧
    (∃ t, exec (.lw 1 2 4) (mk dflt 0 [] []) = .next t) ∧ (∃ t, exec (.jal 1 4) (mk dflt 0 [] []) = .next t) ∧
    ∃ t, exec (.jalr 1 2 4) (mk dflt 0 [] []) = .next t :=
  ⟨ex_next (by decide), ex_next (by decide), ex_next (by decide), ex_next (by decide), ex_next (by decide)⟩
theorem wit_StoreFrame : Memory.wf (mk dflt 0 [] []).mem ∧ ∃ t, exec (.sw 0 1 4) (mk dflt 0 [] []) = .next t := ⟨by decide, ex_next (by decide)⟩
theorem wit_BranchFrame : (∃ t, exec (.beq 1 2 4) (mk dflt 0 [] []) = .next t) ∧ ∃ t, exec (.bne 1 2 4) (mk dflt 0 [] []) = .next t :=
  ⟨ex_next (by decide), ex_next (by decide)⟩
theorem wit_StepRunsDecodedInstruction : (mk dflt 0xFFFFC [] []).pc.toNat + 3 < (mk dflt 0xFFFFC [] []).params.memSize ∧
    decodeBytes [0x00, 0x20, 0x81, 0xB3] = .ok (.add 3 1 2, []) ∧
    Memory.read (mk dflt 0xFFFFC [] [(0xFFFFC, 0x002081B3)]).mem 0xFFFFE = 0x81 := by decide
theorem wit_PlacedWordRuns : Memory.wf State.reset.mem ∧ State.reset.pc.toNat + 3 < State.reset.params.memSize ∧ State.reset.pc.toNat % 4 = 0 ∧
    decodeTableWord 32 0x002081B3 = some (.add 3 1 2) := by decide
theorem wit_StepKeepsLegalState : ∃ s t : State, s.Inv ∧ step s = .next t := by
  obtain ⟨t, ht⟩ := ex_next (o := step (mk dflt 0 [] [(0, 0x00000033)])) (by decide)
  exact ⟨_, t, ⟨by decide, by decide, by decide, by decide⟩, ht⟩
theorem wit_StepKeepsLegalState_error : ∃ (s t : State) (e : MachineError), s.Inv ∧ step s = .fault (.err e t) := by
  obtain ⟨t, ht⟩ := ex_err (o := step (mk dflt 0 [] [])) (e := .invalidInstruction 0) (by decide)
  exact ⟨_, t, _, ⟨by decide, by decide, by decide, by decide⟩, ht⟩
theorem wit_LaunchIsLegal : ({ dflt with memSize := 4 } : Params).wf ∧ Launch.default.params.wf := by decide
theorem wit_HostReachesLegalStates : ∃ s, Launch.default.params.wf ∧ HostReaches Launch.default s ∧ s.started = false ∧ s.mem ≠ [] := by
  obtain ⟨t, ht⟩ := ex_next (o := loadMemory [0x00, 0x20, 0x81, 0xB3] State.reset) (by decide)
  refine ⟨t, by decide, .loaded .constructed ht, ?_, ?_⟩
  · cases ht; rfl
  · cases ht; decide
theorem wit_EvenPcIsKept : (mk dflt 2 [] []).pc.toNat % 2 = 0 ∧ (∃ t, step (mk dflt 2 [] [(2, 0x014000EF)]) = .next t) ∧
    ∃ t, step (mk dflt 2 [] []) = .fault (.err (.invalidInstruction 0) t) := ⟨by decide, ex_next (by decide), ex_err (by decide)⟩
theorem wit_StoreSeenByLaterFetch : Memory.wf (mk dflt 0 [] []).mem ∧ (∃ t, exec (.sw 0 4 0x14) (mk dflt 0 [(4, 0x002081B3)] []) = .next t) ∧
    (0x14 : Addr).toNat = (effectiveAddress (mk dflt 0 [(4, 0x002081B3)] []) 0 0x14).toNat ∧
    decode ((mk dflt 0 [(4, 0x002081B3)] []).readReg 4) = .ok (.add 3 1 2) := ⟨by decide, ex_next (by decide), by decide, by decide⟩
/-- A next state, an error that has written rd (link_first), one that has not, and a refusal. -/
theorem wit_UnreadRegistersDoNotMatter : (5 : RegIdx) ∉ (Instr.jalr 5 6 0).sources ∧ (∃ t, exec (.jalr 5 6 0) (mk dflt 0 [] []) = .next t) ∧
    (∃ t, exec (.jalr 5 6 0) (mk dflt 0 [(6, 0x100000)] []) = .fault (.err (.addressRangeError 0x100000) t)) ∧
    (5 : RegIdx) ∉ (Instr.lw 5 6 0).sources ∧
    (∃ t, exec (.lw 5 6 0) (mk dflt 0 [(6, 0x100000)] []) = .fault (.err (.memoryRangeFault .load 0x100000) t)) ∧
    exec (.beq 1 2 3) (mk dflt 0 [] []) = .refused .unrepresentableImmediate :=
  ⟨by decide, ex_next (by decide), ex_err (by decide), by decide, ex_err (by decide), rfl⟩
theorem wit_OnlySwChangesMemory : Memory.wf (mk dflt 0 [] []).mem ∧
    (nextOf (step (mk dflt 0xC [(4, 0x002081B3)] [(0xC, 0x00402A23)]))).map (fun t => decide (Memory.read t.mem 0x17 ≠
      Memory.read (mk dflt 0xC [(4, 0x002081B3)] [(0xC, 0x00402A23)]).mem 0x17)) = some true := by decide

/-- Whether a run ended Ok, and whether with an error. -/
def ended (r : RunResult) : Option Bool :=
  match r with
  | .ok _ => some true
  | .err _ _ => some false
  | .refused _ => none
  | .outOfFuel _ => none

theorem wit_RunStopsExactly : ended (run 1 (fun p => p == 4) (mk dflt 0 [] [(0, 0x00000033)])) = some true ∧
    ended (run 2 (fun p => p == 8) (mk dflt 0 [] [(0, 0x00000033)])) = some false := by decide
theorem wit_FuelNeverChangesAnOutcome : ended (run 1 (fun p => p == 4) (mk dflt 0 [] [(0, 0x00000033)])) = some true ∧
    ended (run 2 (fun p => p == 8) (mk dflt 0 [] [(0, 0x00000033)])) = some false := by decide
theorem wit_OkRunIsGoodEnd : ended (run 1 (fun p => p == 4) (mk dflt 0 [] [(0, 0x00000033)])) = some true ∧
    (mk dflt 0 [] [(0, 0x00000033)]).faultRecord = none := by decide
theorem wit_LoadMemoryReplaces : (mk dflt 0 [] []).begin.started = true ∧ (mk dflt 0 [] []).started = false ∧
    (mk { dflt with memSize := 4 } 0 [] []).params.memSize < ([1, 2, 3, 4, 5] : List Byte).length ∧
    ([1, 2, 3, 4] : List Byte).length ≤ (mk { dflt with memSize := 4 } 0 [] []).params.memSize := by decide
theorem wit_PhasesRefineTick : fsmAtRest ⟨.ready, State.reset⟩ = true ∧ fsmAtRest ⟨.error (.invalidInstruction 0), State.reset⟩ = true := by decide

end Sys2Proof.Tests
end

section
/-! Register reads after writes and after construction (10_state.md R23, R24, R37). -/

namespace Sys2Proof.Machine

/-- A register read after a register write, for every pair of indices (R23). -/
theorem State.readReg_writeReg (s : State) (i j : RegIdx) (v : Word) :
    (s.writeReg i v).readReg j = if j = 0 then 0 else if j = i then v else s.readReg j := by
  by_cases hzero : j = 0
  · rw [if_pos hzero, hzero]
    exact State.readReg_zero _
  · rw [if_neg hzero]
    by_cases hsame : j = i
    · subst hsame
      rw [if_pos rfl, State.readReg_writeReg_same s j v hzero]
    · rw [if_neg hsame, State.readReg_writeReg_ne s i j v hsame]

/-- A read of a register other than x0 is a read of its slot of X (R23). -/
theorem State.readReg_of_ne_zero (s : State) {j : RegIdx} (h : j ≠ 0) :
    s.readReg j = s.x[j.toNat]'(by have := j.isLt; omega) :=
  if_neg h

/-- A register read of the constructed machine: the slot 0 that construction clears is only x0's (R37). -/
theorem State.readReg_launch (l : Launch) (j : RegIdx) :
    (State.launch l).readReg j =
      if j = 0 then 0 else l.regInit[j.toNat]'(by have := j.isLt; omega) := by
  by_cases hzero : j = 0
  · rw [if_pos hzero, hzero]
    exact State.readReg_zero _
  · have hslot : 0 ≠ j.toNat := fun h => hzero (regIdx_ext h.symm)
    rw [if_neg hzero, State.readReg_of_ne_zero _ hzero]
    exact Vector.getElem_set_ne (by decide) _ hslot

/-- Settles O13: reads after a write, reads after construction, and the dropped write to x0. -/
theorem registerReadsLastWrite : Obligations.RegisterReadsLastWrite :=
  ⟨State.readReg_writeReg, State.readReg_launch, State.writeReg_zero⟩

end Sys2Proof.Machine
end

section
/-! The base fields of a word (30_encoding.md R61 to R63): what they are after a write of another, and that they determine the word. -/

namespace Sys2Proof

/-- Two fields of which the upper begins where the lower ends are one field. -/
theorem bits_append_bits (w : Word) {lo hi m n : Nat} (h : hi = lo + m) : bits w hi n ++ bits w lo m = bits w lo (n + m) :=
  BitVec.extractLsb'_append_extractLsb'_eq_extractLsb' h

/-- A field reads back the value written to it (R63). -/
@[simp] theorem bits_withBits_same {len : Nat} (w : Word) (lo : Nat) (v : BitVec len) (h : lo + len ≤ 32) :
    bits (withBits w lo v) lo len = v := by
  refine BitVec.eq_of_getLsbD_eq fun n hn => ?_
  rw [getLsbD_bits, getLsbD_withBits _ _ _ _ (by omega), if_pos (by omega)]
  simp [hn]

/-- A field keeps its value when bits outside it are written (R63). -/
@[simp] theorem bits_withBits_disjoint {len : Nat} (w : Word) (lo lo' len' : Nat) (v : BitVec len)
    (h : lo' + len' ≤ lo ∨ lo + len ≤ lo') : bits (withBits w lo v) lo' len' = bits w lo' len' := by
  refine BitVec.eq_of_getLsbD_eq fun n hn => ?_
  rw [getLsbD_bits, getLsbD_bits]
  by_cases hin : lo' + n < 32
  · rw [getLsbD_withBits _ _ _ _ hin, if_neg (by omega)]
  · rw [BitVec.getLsbD_of_ge _ _ (by omega), BitVec.getLsbD_of_ge _ _ (by omega)]

/-- The six base fields, high to low, are the whole word (R61). -/
theorem fields_append (w : Word) : (funct7 w ++ rs2 w ++ rs1 w ++ funct3 w ++ rd w ++ opcode w : BitVec 32) = w := by
  unfold funct7 rs2 rs1 funct3 rd opcode
  simp (disch := decide) only [bits_append_bits]
  exact BitVec.extractLsb'_eq_self

/-- Words with the same six base fields are the same word (R61). -/
theorem word_ext {w v : Word} (hop : opcode w = opcode v) (hrd : rd w = rd v) (hf3 : funct3 w = funct3 v)
    (hrs1 : rs1 w = rs1 v) (hrs2 : rs2 w = rs2 v) (hf7 : funct7 w = funct7 v) : w = v := by
  rw [← fields_append w, hop, hrd, hf3, hrs1, hrs2, hf7, fields_append]

/-- Settles O1: fields next to each other append to one field, and a bit of a field is a bit of the word. -/
theorem baseFieldsCoverWord : Obligations.BaseFieldsCoverWord := by
  intro w
  have hbit (lo len : Nat) : ∀ n, n < len → (bits w lo len).getLsbD n = w.getLsbD (lo + n) := by
    intro n hn
    rw [getLsbD_bits, decide_eq_true hn, Bool.true_and]
  have hop : ∀ n, n < 7 → (bits w 0 7).getLsbD n = w.getLsbD n := by simpa only [Nat.zero_add] using hbit 0 7
  exact ⟨fields_append w, hop, hbit 7 5, hbit 12 3, hbit 15 5, hbit 20 5, hbit 25 7⟩

end Sys2Proof
end

section
/-! Immediates (30_encoding.md R70 to R80): the values a kind represents, insertion and extraction, and which fields an immediate fixes. -/

namespace Sys2Proof

/-! The table of R78. -/

theorem representable_I_iff {v : Word} : representable .I v = true ↔ -2048 ≤ v.toInt ∧ v.toInt ≤ 2047 := by
  simp [representable]

theorem representable_S_iff {v : Word} : representable .S v = true ↔ -2048 ≤ v.toInt ∧ v.toInt ≤ 2047 :=
  representable_I_iff

theorem representable_B_iff {v : Word} :
    representable .B v = true ↔ -4096 ≤ v.toInt ∧ v.toInt ≤ 4094 ∧ v.getLsbD 0 = false := by
  simp [representable, and_assoc]

theorem representable_J_iff {v : Word} :
    representable .J v = true ↔ -1048576 ≤ v.toInt ∧ v.toInt ≤ 1048574 ∧ v.getLsbD 0 = false := by
  simp [representable, and_assoc]

/-- A field is 0 exactly when its bits are. -/
theorem bits_eq_zero_iff {w : Word} {lo len : Nat} : bits w lo len = 0 ↔ ∀ n, n < len → w.getLsbD (lo + n) = false := by
  constructor
  · intro h n hn
    have hbit := getLsbD_bits w lo len n
    simpa [h, hn] using hbit.symm
  · intro h
    refine BitVec.eq_of_getLsbD_eq fun n hn => ?_
    simp [getLsbD_bits, h n hn]

theorem representable_U_iff {v : Word} : representable .U v = true ↔ bits v 0 12 = 0 := by
  simp [representable, bits]

/-! What insertion stores and extraction reads back, representable or not (R79). -/

section
variable (w v : Word)

theorem immediate_withImmediate_I : immediate (withImmediate w v .I) .I = (bits v 0 12).signExtend 32 := by
  simp (disch := decide) only [immediate, withImmediate, bits_withBits_same, bits_withBits_disjoint, bits_append_bits]

theorem immediate_withImmediate_S : immediate (withImmediate w v .S) .S = (bits v 0 12).signExtend 32 := by
  simp (disch := decide) only [immediate, withImmediate, bits_withBits_same, bits_withBits_disjoint, bits_append_bits]

theorem immediate_withImmediate_B : immediate (withImmediate w v .B) .B = (bits v 1 12 ++ 0#1).signExtend 32 := by
  simp (disch := decide) only [immediate, withImmediate, bits_withBits_same, bits_withBits_disjoint, bits_append_bits,
    BitVec.ofNat_eq_ofNat]

theorem immediate_withImmediate_U : immediate (withImmediate w v .U) .U = bits v 12 20 ++ 0#12 := by
  simp (disch := decide) only [immediate, withImmediate, bits_withBits_same, bits_withBits_disjoint, bits_append_bits,
    BitVec.ofNat_eq_ofNat]

theorem immediate_withImmediate_J : immediate (withImmediate w v .J) .J = (bits v 1 20 ++ 0#1).signExtend 32 := by
  simp (disch := decide) only [immediate, withImmediate, bits_withBits_same, bits_withBits_disjoint, bits_append_bits,
    BitVec.ofNat_eq_ofNat]

end

/-! Reading back what a kind represents, and representing what it reads (R78). -/

/-- The low m + 1 bits of a value in their signed range lose nothing. -/
theorem signExtend_bits_of_range (v : Word) (m : Nat) (hm : m < 32) (h1 : -(2 ^ m : Int) ≤ v.toInt) (h2 : v.toInt < 2 ^ m) :
    (bits v 0 (m + 1)).signExtend 32 = v := by
  have hlow : bits v 0 (m + 1) = v.setWidth (m + 1) := (BitVec.setWidth_eq_extractLsb' (by omega)).symm
  rw [hlow, signExtend_of_range v m hm h1 h2]

/-- An even value is its upper bits and a 0. -/
theorem bits_append_zero_of_even {v : Word} {n : Nat} (h : v.getLsbD 0 = false) : bits v 1 n ++ 0#1 = bits v 0 (n + 1) := by
  have hzero : bits v 0 1 = 0#1 := bits_eq_zero_iff.2 fun n hn => by
    rwa [Nat.zero_add, Nat.lt_one_iff.1 hn]
  rw [← hzero]
  exact bits_append_bits v rfl

/-- Every value a kind represents reads back from every word it is inserted in (R78). -/
theorem immediate_withImmediate {k : ImmKind} {v : Word} (h : representable k v = true) (w : Word) :
    immediate (withImmediate w v k) k = v := by
  cases k with
  | I =>
    obtain ⟨hlo, hhi⟩ := representable_I_iff.1 h
    rw [immediate_withImmediate_I, signExtend_bits_of_range v 11] <;> omega
  | S =>
    obtain ⟨hlo, hhi⟩ := representable_S_iff.1 h
    rw [immediate_withImmediate_S, signExtend_bits_of_range v 11] <;> omega
  | B =>
    obtain ⟨hlo, hhi, heven⟩ := representable_B_iff.1 h
    rw [immediate_withImmediate_B, bits_append_zero_of_even heven, signExtend_bits_of_range v 12] <;> omega
  | U =>
    have hlow : bits v 0 12 = 0#12 := representable_U_iff.1 h
    rw [immediate_withImmediate_U, ← hlow]
    exact (bits_append_bits v rfl).trans BitVec.extractLsb'_eq_self
  | J =>
    obtain ⟨hlo, hhi, heven⟩ := representable_J_iff.1 h
    rw [immediate_withImmediate_J, bits_append_zero_of_even heven, signExtend_bits_of_range v 20] <;> omega

/-- Settles O4: the table kind by kind, and the read-back of immediate_withImmediate. -/
theorem immediateRoundTrip : Obligations.ImmediateRoundTrip := by
  intro k v
  refine ⟨?_, immediate_withImmediate⟩
  cases k with
  | I => exact representable_I_iff
  | S => exact representable_S_iff
  | B => exact representable_B_iff
  | U =>
    rw [representable_U_iff, bits_eq_zero_iff]
    simp only [Nat.zero_add]
  | J => exact representable_J_iff

/-- The signed range of a sign-extended value of m + 1 bits. -/
theorem signExtend_range {m : Nat} (hm : m < 32) (x : BitVec (m + 1)) :
    -(2 ^ m : Int) ≤ (x.signExtend 32).toInt ∧ (x.signExtend 32).toInt ≤ 2 ^ m - 1 := by
  rw [BitVec.toInt_signExtend_of_le hm]
  exact ⟨x.le_toInt, Int.le_sub_one_of_lt x.toInt_lt⟩

/-- A sign-extended value of m + 1 bits and a 0 is even, and in the signed range of m + 2 bits. -/
theorem signExtend_append_zero_range {m : Nat} (hm : m + 1 < 32) (x : BitVec (m + 1)) :
    -(2 * 2 ^ m : Int) ≤ ((x ++ 0#1).signExtend 32).toInt ∧ ((x ++ 0#1).signExtend 32).toInt ≤ 2 * 2 ^ m - 2 ∧
      ((x ++ 0#1).signExtend 32).getLsbD 0 = false := by
  have hlo : -(2 ^ m : Int) ≤ x.toInt := x.le_toInt
  have hhi : x.toInt < 2 ^ m := x.toInt_lt
  rw [BitVec.toInt_signExtend_of_le hm, BitVec.toInt_append_zero]
  refine ⟨by omega, by omega, ?_⟩
  simp [BitVec.getElem_signExtend, BitVec.getElem_append]

/-- What a word reads as a kind's immediate is representable by the kind (from R71 to R76). -/
theorem representable_immediate (w : Word) (k : ImmKind) : representable k (immediate w k) = true := by
  cases k with
  | I => exact representable_I_iff.2 (signExtend_range (m := 11) (by decide) _)
  | S => exact representable_S_iff.2 (signExtend_range (m := 11) (by decide) _)
  | B => exact representable_B_iff.2 (signExtend_append_zero_range (m := 11) (by decide) _)
  | U => exact representable_U_iff.2 BitVec.extractLsb'_append_eq_right
  | J => exact representable_J_iff.2 (signExtend_append_zero_range (m := 19) (by decide) _)

end Sys2Proof
end

section
/-! The opcode map (30_encoding.md R81, R87): a word decodes to an instruction exactly when it matches the instruction's row and
reads as its operands. -/

namespace Sys2Proof

/-- The instruction of i's row with the operands the word gives (R82). -/
def Instr.readFrom (w : Word) : Instr → Instr
  | .add _ _ _ => .add (rd w) (rs1 w) (rs2 w)
  | .sub _ _ _ => .sub (rd w) (rs1 w) (rs2 w)
  | .lw _ _ _ => .lw (rd w) (rs1 w) (immediate w .I)
  | .sw _ _ _ => .sw (rs1 w) (rs2 w) (immediate w .S)
  | .jal _ _ => .jal (rd w) (immediate w .J)
  | .jalr _ _ _ => .jalr (rd w) (rs1 w) (immediate w .I)
  | .beq _ _ _ => .beq (rs1 w) (rs2 w) (immediate w .B)
  | .bne _ _ _ => .bne (rs1 w) (rs2 w) (immediate w .B)

/-- The word has the opcode, funct3 and funct7 that the walk of R81 asks of i's variant. -/
def Instr.HasRowFields (w : Word) : Instr → Prop
  | .add _ _ _ => opcode w = 0b0110011 ∧ funct3 w = 0b000 ∧ funct7 w = 0b0000000
  | .sub _ _ _ => opcode w = 0b0110011 ∧ funct3 w = 0b000 ∧ funct7 w = 0b0100000
  | .lw _ _ _ => opcode w = 0b0000011 ∧ funct3 w = 0b010
  | .sw _ _ _ => opcode w = 0b0100011 ∧ funct3 w = 0b010
  | .jal _ _ => opcode w = 0b1101111
  | .jalr _ _ _ => opcode w = 0b1100111 ∧ funct3 w = 0b000
  | .beq _ _ _ => opcode w = 0b1100011 ∧ funct3 w = 0b000
  | .bne _ _ _ => opcode w = 0b1100011 ∧ funct3 w = 0b001

/-- Words agree under a mask exactly when their fields agree under the mask's. -/
theorem and_eq_and_iff_fields {w v mask : Word} :
    w &&& mask = v &&& mask ↔
      opcode w &&& opcode mask = opcode v &&& opcode mask ∧ rd w &&& rd mask = rd v &&& rd mask ∧
      funct3 w &&& funct3 mask = funct3 v &&& funct3 mask ∧ rs1 w &&& rs1 mask = rs1 v &&& rs1 mask ∧
      rs2 w &&& rs2 mask = rs2 v &&& rs2 mask ∧ funct7 w &&& funct7 mask = funct7 v &&& funct7 mask := by
  have hbits (u : Word) (lo len : Nat) : bits u lo len &&& bits mask lo len = bits (u &&& mask) lo len :=
    BitVec.extractLsb'_and.symm
  simp only [opcode, rd, funct3, rs1, rs2, funct7, hbits]
  constructor
  · intro h
    simp only [h, and_self]
  · rintro ⟨hop, hrd, hf3, hrs1, hrs2, hf7⟩
    exact word_ext hop hrd hf3 hrs1 hrs2 hf7

section
variable {w v : Word}

/-- The mask of JAL's row is the field opcode. -/
theorem and_opcode_mask_iff : w &&& 0x0000007F#32 = v &&& 0x0000007F#32 ↔ opcode w = opcode v := by
  rw [and_eq_and_iff_fields]
  change opcode w &&& .allOnes 7 = opcode v &&& .allOnes 7 ∧ rd w &&& 0#5 = rd v &&& 0#5 ∧
    funct3 w &&& 0#3 = funct3 v &&& 0#3 ∧ rs1 w &&& 0#5 = rs1 v &&& 0#5 ∧ rs2 w &&& 0#5 = rs2 v &&& 0#5 ∧
    funct7 w &&& 0#7 = funct7 v &&& 0#7 ↔ _
  simp only [BitVec.and_allOnes, BitVec.and_zero, and_true]

/-- The mask of the rows with a funct3 and no funct7 is the fields opcode and funct3. -/
theorem and_funct3_mask_iff : w &&& 0x0000707F#32 = v &&& 0x0000707F#32 ↔ opcode w = opcode v ∧ funct3 w = funct3 v := by
  rw [and_eq_and_iff_fields]
  change opcode w &&& .allOnes 7 = opcode v &&& .allOnes 7 ∧ rd w &&& 0#5 = rd v &&& 0#5 ∧
    funct3 w &&& .allOnes 3 = funct3 v &&& .allOnes 3 ∧ rs1 w &&& 0#5 = rs1 v &&& 0#5 ∧ rs2 w &&& 0#5 = rs2 v &&& 0#5 ∧
    funct7 w &&& 0#7 = funct7 v &&& 0#7 ↔ _
  simp only [BitVec.and_allOnes, BitVec.and_zero, and_true, true_and]

/-- The mask of the rows of ADD and SUB is the fields opcode, funct3 and funct7. -/
theorem and_funct7_mask_iff :
    w &&& 0xFE00707F#32 = v &&& 0xFE00707F#32 ↔ opcode w = opcode v ∧ funct3 w = funct3 v ∧ funct7 w = funct7 v := by
  rw [and_eq_and_iff_fields]
  change opcode w &&& .allOnes 7 = opcode v &&& .allOnes 7 ∧ rd w &&& 0#5 = rd v &&& 0#5 ∧
    funct3 w &&& .allOnes 3 = funct3 v &&& .allOnes 3 ∧ rs1 w &&& 0#5 = rs1 v &&& 0#5 ∧ rs2 w &&& 0#5 = rs2 v &&& 0#5 ∧
    funct7 w &&& .allOnes 7 = funct7 v &&& .allOnes 7 ↔ _
  simp only [BitVec.and_allOnes, BitVec.and_zero, true_and]

end

/-- A row's match and mask fix the fields the walk of R81 asks for, and no other bit (R87). -/
theorem Instr.matches_row_iff {w : Word} (i : Instr) : w &&& i.maskBits = i.matchBits ↔ i.HasRowFields w := by
  cases i with
  | add => exact and_funct7_mask_iff (v := 0x00000033)
  | sub => exact and_funct7_mask_iff (v := 0x40000033)
  | lw => exact and_funct3_mask_iff (v := 0x00002003)
  | sw => exact and_funct3_mask_iff (v := 0x00002023)
  | jal => exact and_opcode_mask_iff (v := 0x0000006F)
  | jalr => exact and_funct3_mask_iff (v := 0x00000067)
  | beq => exact and_funct3_mask_iff (v := 0x00000063)
  | bne => exact and_funct3_mask_iff (v := 0x00001063)

/-- The walk of R81 answers at i's row the instruction read from the word. -/
theorem decode_of_hasRowFields {w : Word} {i : Instr} (h : i.HasRowFields w) : decode w = .ok (i.readFrom w) := by
  cases i <;> simp only [Instr.HasRowFields] at h <;> simp [decode, Instr.readFrom, h]

/-- A decoded instruction's row fields are the word's, and its operands are read from the word. -/
theorem hasRowFields_of_decode {w : Word} {i : Instr} (h : decode w = .ok i) : i.HasRowFields w ∧ i = i.readFrom w := by
  obtain ⟨hop, hf3, hf7, rfl⟩ | ⟨hop, hf3, hf7, rfl⟩ | ⟨hop, hf3, rfl⟩ | ⟨hop, hf3, rfl⟩ | ⟨hop, rfl⟩ | ⟨hop, hf3, rfl⟩ |
    ⟨hop, hf3, rfl⟩ | ⟨hop, hf3, rfl⟩ := decode_ok h
  · exact ⟨⟨hop, hf3, hf7⟩, rfl⟩
  · exact ⟨⟨hop, hf3, hf7⟩, rfl⟩
  · exact ⟨⟨hop, hf3⟩, rfl⟩
  · exact ⟨⟨hop, hf3⟩, rfl⟩
  · exact ⟨hop, rfl⟩
  · exact ⟨⟨hop, hf3⟩, rfl⟩
  · exact ⟨⟨hop, hf3⟩, rfl⟩
  · exact ⟨⟨hop, hf3⟩, rfl⟩

/-- What decoding to an instruction means: its row fields are the word's, and its operands are read from the word. -/
theorem decode_eq_ok_iff {w : Word} {i : Instr} : decode w = .ok i ↔ i.HasRowFields w ∧ i = i.readFrom w :=
  ⟨hasRowFields_of_decode, fun ⟨hrow, hread⟩ => (decode_of_hasRowFields hrow).trans (congrArg Except.ok hread.symm)⟩

/-- The rows of the opcode map are those of the instructions. -/
theorem mem_opcodeRows_iff {r : Word × Word} : r ∈ opcodeRows ↔ ∃ i : Instr, r = (i.matchBits, i.maskBits) := by
  constructor
  · intro h
    simp only [opcodeRows, List.mem_cons, List.not_mem_nil, or_false] at h
    obtain rfl | rfl | rfl | rfl | rfl | rfl | rfl | rfl := h
    · exact ⟨.add 0 0 0, rfl⟩
    · exact ⟨.sub 0 0 0, rfl⟩
    · exact ⟨.lw 0 0 0, rfl⟩
    · exact ⟨.sw 0 0 0, rfl⟩
    · exact ⟨.jal 0 0, rfl⟩
    · exact ⟨.jalr 0 0 0, rfl⟩
    · exact ⟨.beq 0 0 0, rfl⟩
    · exact ⟨.bne 0 0 0, rfl⟩
  · rintro ⟨i, rfl⟩
    cases i <;> simp [opcodeRows, Instr.matchBits, Instr.maskBits]

/-- A word matches no row exactly when it has the row fields of no instruction. -/
theorem matches_no_row_iff {w : Word} : (∀ r ∈ opcodeRows, w &&& r.2 ≠ r.1) ↔ ∀ i : Instr, ¬ i.HasRowFields w := by
  simp only [mem_opcodeRows_iff, forall_exists_index, forall_eq_apply_imp_iff, ne_eq, Instr.matches_row_iff]

/-- The words that are no instruction: those with the row fields of none (R83). -/
theorem decode_eq_invalid_iff {w : Word} :
    decode w = .error (.invalidInstruction w) ↔ ∀ i : Instr, ¬ i.HasRowFields w := by
  constructor
  · intro h i hrow
    rw [decode_of_hasRowFields hrow] at h
    cases h
  · intro h
    cases hw : decode w with
    | ok i => exact absurd (decode_eq_ok_iff.1 hw).1 (h i)
    | error e => rw [decode_error hw]

end Sys2Proof
end

section
/-! A fetched word that is no instruction (30_encoding.md R83, R88; 60_exceptions.md R182). -/

namespace Sys2Proof.Machine

/-- Recording an error in a tick that has only begun leaves registers, pc, memory and parameters. -/
theorem sameMachine_begin_recordError (s : State) (e : MachineError) : SameMachine s (s.begin.recordError e) :=
  ⟨rfl, rfl, rfl, rfl⟩

/-- A tick that fetches a word that is no instruction stops with InvalidInstruction of that word. -/
theorem step_of_fetched_invalid {s : State} {w : Word} (hfetch : fetchWord s = .ok w)
    (hw : decode w = .error (.invalidInstruction w)) :
    step s = .fault (.err (.invalidInstruction w) (s.begin.recordError (.invalidInstruction w))) := by
  have hbegin : fetchWord s.begin = .ok w := hfetch
  exact step_fault.2 (.inl ⟨fetchInstr_error.2 (.inr ⟨w, hbegin, rfl, _, hw⟩), rfl⟩)

/-- Settles O12: by the rows of the opcode map, by decode_error, and by the tick on an invalid word. -/
theorem invalidWordsChangeNothing : Obligations.InvalidWordsChangeNothing := by
  have hrows (w : Word) : (∀ r ∈ opcodeRows, w &&& r.2 ≠ r.1) ↔ decode w = .error (.invalidInstruction w) :=
    matches_no_row_iff.trans decode_eq_invalid_iff.symm
  refine ⟨hrows, fun w e => decode_error, fun s w hfetch hnone => ?_⟩
  exact ⟨_, step_of_fetched_invalid hfetch ((hrows w).1 hnone), sameMachine_begin_recordError s _⟩

end Sys2Proof.Machine
end

section
/-! Decoding and encoding are inverse (30_encoding.md R84 to R86). -/

namespace Sys2Proof

/-! Which fields an immediate fixes. -/

/-- Appended values are equal exactly when their parts are. -/
theorem append_inj {m n : Nat} {x x' : BitVec m} {y y' : BitVec n} : x ++ y = x' ++ y' ↔ x = x' ∧ y = y' := by
  constructor
  · intro h
    have hleft := congrArg (BitVec.extractLsb' n m) h
    have hright := congrArg (BitVec.extractLsb' 0 n) h
    rw [BitVec.extractLsb'_append_eq_left, BitVec.extractLsb'_append_eq_left] at hleft
    rw [BitVec.extractLsb'_append_eq_right, BitVec.extractLsb'_append_eq_right] at hright
    exact ⟨hleft, hright⟩
  · rintro ⟨rfl, rfl⟩
    rfl

/-- Sign extension to a word loses nothing. -/
theorem signExtend_inj {n : Nat} (hn : n ≤ 32) {x y : BitVec n} : x.signExtend 32 = y.signExtend 32 ↔ x = y := by
  rw [← BitVec.toInt_inj, BitVec.toInt_signExtend_of_le hn, BitVec.toInt_signExtend_of_le hn, BitVec.toInt_inj]

/-- Words agree on a field exactly when they agree on its upper and its lower part. -/
theorem bits_eq_iff_parts {w v : Word} (lo m n : Nat) :
    bits w lo (n + m) = bits v lo (n + m) ↔ bits w (lo + m) n = bits v (lo + m) n ∧ bits w lo m = bits v lo m := by
  rw [← bits_append_bits w rfl, ← bits_append_bits v rfl, append_inj]

section
variable {w v : Word}

theorem funct7_eq_iff : funct7 w = funct7 v ↔ bits w 31 1 = bits v 31 1 ∧ bits w 25 6 = bits v 25 6 :=
  bits_eq_iff_parts 25 6 1

theorem rs2_eq_iff : rs2 w = rs2 v ↔ bits w 21 4 = bits v 21 4 ∧ bits w 20 1 = bits v 20 1 :=
  bits_eq_iff_parts 20 1 4

theorem rd_eq_iff : rd w = rd v ↔ bits w 8 4 = bits v 8 4 ∧ bits w 7 1 = bits v 7 1 :=
  bits_eq_iff_parts 7 1 4

theorem rs1_funct3_eq_iff : rs1 w = rs1 v ∧ funct3 w = funct3 v ↔ bits w 12 8 = bits v 12 8 :=
  (bits_eq_iff_parts 12 3 5).symm

/-- An I immediate is the fields funct7 and rs2 (R71). -/
theorem immediate_I_eq_iff : immediate w .I = immediate v .I ↔ funct7 w = funct7 v ∧ rs2 w = rs2 v := by
  simp (disch := decide) only [immediate, signExtend_inj, append_inj, funct7_eq_iff, rs2_eq_iff, and_assoc]

/-- An S immediate is the fields funct7 and rd (R72). -/
theorem immediate_S_eq_iff : immediate w .S = immediate v .S ↔ funct7 w = funct7 v ∧ rd w = rd v := by
  simp (disch := decide) only [immediate, signExtend_inj, append_inj, funct7_eq_iff, rd_eq_iff, and_assoc]

/-- A B immediate is the fields funct7 and rd, in another order (R73). -/
theorem immediate_B_eq_iff : immediate w .B = immediate v .B ↔ funct7 w = funct7 v ∧ rd w = rd v := by
  simp (disch := decide) only [immediate, signExtend_inj, append_inj, funct7_eq_iff, rd_eq_iff]
  tauto

/-- A J immediate is the fields funct7, rs2, rs1 and funct3, in another order (R75). -/
theorem immediate_J_eq_iff : immediate w .J = immediate v .J ↔
    funct7 w = funct7 v ∧ rs2 w = rs2 v ∧ rs1 w = rs1 v ∧ funct3 w = funct3 v := by
  simp (disch := decide) only [immediate, signExtend_inj, append_inj, funct7_eq_iff, rs2_eq_iff, rs1_funct3_eq_iff]
  tauto

end

/-- A word is determined by its row and what it reads as there: the row fixes opcode, funct3 and funct7 where no operand does, and
the operands, with the fields their immediate is, the rest. -/
theorem eq_of_readFrom_eq {w v : Word} {i : Instr} (hw : i.HasRowFields w) (hv : i.HasRowFields v)
    (h : i.readFrom w = i.readFrom v) : w = v := by
  cases i
  all_goals
    simp only [Instr.HasRowFields] at hw hv
    simp only [Instr.readFrom, Instr.add.injEq, Instr.sub.injEq, Instr.lw.injEq, Instr.sw.injEq, Instr.jal.injEq,
      Instr.jalr.injEq, Instr.beq.injEq, Instr.bne.injEq, immediate_I_eq_iff, immediate_S_eq_iff, immediate_B_eq_iff,
      immediate_J_eq_iff] at h
    apply word_ext <;> simp only [hw, hv, h]

/-! What the encoder writes. -/

/-- Insertion keeps every bit its kind does not own (R80). -/
theorem getLsbD_withImmediate_of_not_owned (w v : Word) {k : ImmKind} {n : Nat} (hn : n < 32) (h : ownsBit k n = false) :
    (withImmediate w v k).getLsbD n = w.getLsbD n := by
  cases k <;> simp only [ownsBit, Bool.or_eq_false_iff, decide_eq_false_iff_not] at h <;>
    simp (disch := omega) only [withImmediate, getLsbD_withBits _ _ _ _ hn, if_neg]

/-- Insertion keeps every field its kind does not own (R80). -/
theorem bits_withImmediate (w v : Word) {k : ImmKind} {lo len : Nat} (h : ∀ n, n < len → ownsBit k (lo + n) = false) :
    bits (withImmediate w v k) lo len = bits w lo len := by
  refine BitVec.eq_of_getLsbD_eq fun n hn => ?_
  rw [getLsbD_bits, getLsbD_bits]
  by_cases hin : lo + n < 32
  · rw [getLsbD_withImmediate_of_not_owned w v hin (h n hn)]
  · rw [BitVec.getLsbD_of_ge _ _ (by omega), BitVec.getLsbD_of_ge _ _ (by omega)]

/-- The encoder gives an instruction its row's fields (R84). -/
theorem hasRowFields_encodeBits (i : Instr) : i.HasRowFields (encodeBits i) := by
  rw [← Instr.matches_row_iff]
  cases i with
  | add d a b => exact Laws.EncodeRow.add d a b
  | sub d a b => exact Laws.EncodeRow.sub d a b
  | lw d a imm => exact Laws.EncodeRow.lw d a imm
  | sw a b imm => exact Laws.EncodeRow.sw a b imm
  | jal d imm => exact Laws.EncodeRow.jal d imm
  | jalr d a imm => exact Laws.EncodeRow.jalr d a imm
  | beq a b imm => exact Laws.EncodeRow.beq a b imm
  | bne a b imm => exact Laws.EncodeRow.bne a b imm

/-- The operands of a well-formed instruction read back from its word: a register by the mutator laws, an immediate by
immediate_withImmediate. -/
theorem readFrom_encodeBits {i : Instr} (h : i.wf = true) : i.readFrom (encodeBits i) = i := by
  cases i
  all_goals
    simp only [Instr.wf] at h
    simp (disch := decide) only [Instr.readFrom, encodeBits, rd, rs1, rs2, withOpcode, withRd, withFunct3, withRs1, withRs2,
      withFunct7, bits_withImmediate, bits_withBits_same, bits_withBits_disjoint]
  all_goals rw [immediate_withImmediate h]

/-- What a word reads as is well-formed. -/
theorem wf_readFrom (w : Word) (i : Instr) : (i.readFrom w).wf = true := by
  cases i <;> simp only [Instr.readFrom, Instr.wf, representable_immediate]

/-! The two round trips. -/

/-- A decoded instruction is well-formed (from R71 to R75, R78 and R82). -/
theorem wf_of_decode {w : Word} {i : Instr} (h : decode w = .ok i) : i.wf = true := by
  obtain ⟨-, hread⟩ := decode_eq_ok_iff.1 h
  rw [hread]
  exact wf_readFrom w i

/-- A well-formed instruction's word decodes to it (R86). -/
theorem decode_encodeBits {i : Instr} (h : i.wf = true) : decode (encodeBits i) = .ok i :=
  decode_eq_ok_iff.2 ⟨hasRowFields_encodeBits i, (readFrom_encodeBits h).symm⟩

/-- No two words decode to the same instruction (R86). -/
theorem decode_injective {w v : Word} {i : Instr} (hw : decode w = .ok i) (hv : decode v = .ok i) : w = v := by
  obtain ⟨hroww, hreadw⟩ := decode_eq_ok_iff.1 hw
  obtain ⟨hrowv, hreadv⟩ := decode_eq_ok_iff.1 hv
  exact eq_of_readFrom_eq hroww hrowv (hreadw.symm.trans hreadv)

/-- A valid word is the word of its instruction (R86). -/
theorem encode_of_decode {w : Word} {i : Instr} (h : decode w = .ok i) : encode i = .ok w :=
  have hwf := wf_of_decode h
  encode_ok.2 ⟨hwf, decode_injective h (decode_encodeBits hwf)⟩

/-- Settles O8: a well-formed instruction's word decodes to it, and decoding, being injective, decides that word. -/
theorem decodeEncodeRoundTrip : Obligations.DecodeEncodeRoundTrip :=
  ⟨fun i hwf => ⟨encodeBits i, encode_ok.2 ⟨hwf, rfl⟩, decode_encodeBits hwf⟩, fun _ _ => encode_of_decode,
    fun _ _ _ => decode_injective⟩

end Sys2Proof
end

section
/-! The saturating sum and difference as unsigned numbers (41_alu.md R140, R141). -/

namespace Sys2Proof.Machine

/-- The saturating sum is the lesser of the sum and the largest word (R140): below the clamp the word sum does not wrap. -/
@[simp] theorem toNat_saturatingAdd (a b : Word) : (saturatingAdd a b).toNat = min (a.toNat + b.toNat) 0xFFFFFFFF := by
  unfold saturatingAdd
  split
  case isTrue hover =>
    rw [Nat.min_eq_right hover.le]
    rfl
  case isFalse hfits =>
    have hle : a.toNat + b.toNat ≤ 0xFFFFFFFF := Nat.not_lt.1 hfits
    rw [Nat.min_eq_left hle, BitVec.toNat_add_of_lt (Nat.lt_succ_of_le hle)]

/-- The saturating difference is the truncated difference (R141): at or above 0 the word difference does not borrow. -/
@[simp] theorem toNat_saturatingSub (a b : Word) : (saturatingSub a b).toNat = a.toNat - b.toNat := by
  unfold saturatingSub
  split
  case isTrue hlt => exact (Nat.sub_eq_zero_of_le hlt.le).symm
  case isFalse hge => exact BitVec.toNat_sub_of_le (BitVec.le_def.2 (Nat.not_lt.1 hge))

/-- Settles O26: a minimum and a truncated difference are the two clamps, on each side of its bound. -/
theorem saturatingArithmeticClamps : Obligations.SaturatingArithmeticClamps := by
  refine ⟨fun a b => ⟨?sum, ?difference⟩, by decide, by decide⟩
  case sum =>
    rw [toNat_saturatingAdd]
    split <;> omega
  case difference =>
    rw [toNat_saturatingSub]
    split <;> omega

end Sys2Proof.Machine
end

section
/-! What exec can do: its meaning at each variant, and the states it can answer or leave (40_cycle.md R114, 60_exceptions.md R187). -/

namespace Sys2Proof.Machine

section
variable (d a b : RegIdx) (imm : Word) (s : State)

@[simp] theorem exec_add :
    exec (.add d a b) s = execAlu d (aluAdd s.params.arithMode (s.readReg a) (s.readReg b)) s := rfl

@[simp] theorem exec_sub :
    exec (.sub d a b) s = execAlu d (aluSub s.params.arithMode (s.readReg a) (s.readReg b)) s := rfl

@[simp] theorem exec_lw : exec (.lw d a imm) s = execLw d a imm s := rfl

@[simp] theorem exec_sw : exec (.sw a b imm) s = execSw a b imm s := rfl

@[simp] theorem exec_jal : exec (.jal d imm) s = execJal d imm s := rfl

@[simp] theorem exec_jalr : exec (.jalr d a imm) s = execJalr d a imm s := rfl

@[simp] theorem exec_beq : exec (.beq a b imm) s = execBranch (s.readReg a == s.readReg b) imm s := rfl

@[simp] theorem exec_bne : exec (.bne a b imm) s = execBranch (s.readReg a != s.readReg b) imm s := rfl

end

/-- The next states of exec: rd and pc are written, or SW's word and pc, or pc alone (10_state.md R25). -/
theorem exec_next_cases {i : Instr} {s t : State} (h : exec i s = .next t) :
    (∃ d r npc, i.dest? = some d ∧ t = (s.writeReg d r).setPc npc) ∨
    (∃ base src imm npc, i = .sw base src imm ∧ checkAccess s .store (effectiveAddress s base imm) = .ok () ∧
      t = (s.setMem (Memory.writeWord s.mem (effectiveAddress s base imm).toNat (s.readReg src))).setPc npc) ∨
    ∃ npc, i.dest? = none ∧ t = s.setPc npc := by
  cases i with
  | add d a b =>
    obtain ⟨npc, -, ht⟩ := execAlu_next.1 h
    exact .inl ⟨d, _, npc, rfl, ht⟩
  | sub d a b =>
    obtain ⟨npc, -, ht⟩ := execAlu_next.1 h
    exact .inl ⟨d, _, npc, rfl, ht⟩
  | lw d a imm =>
    obtain ⟨-, -, npc, -, ht⟩ := execLw_next.1 h
    exact .inl ⟨d, _, npc, rfl, ht⟩
  | sw a b imm =>
    obtain ⟨-, hok, npc, -, ht⟩ := execSw_next.1 h
    exact .inr (.inl ⟨a, b, imm, npc, rfl, hok, ht⟩)
  | jal d imm =>
    obtain ⟨-, ht⟩ := execJal_next.1 h
    exact .inl ⟨d, _, _, rfl, ht⟩
  | jalr d a imm =>
    obtain ⟨-, -, ht⟩ := execJalr_next.1 h
    exact .inl ⟨d, _, _, rfl, ht⟩
  | beq a b imm =>
    obtain ⟨-, npc, -, ht⟩ := execBranch_next.1 h
    exact .inr (.inr ⟨npc, rfl, ht⟩)
  | bne a b imm =>
    obtain ⟨-, npc, -, ht⟩ := execBranch_next.1 h
    exact .inr (.inr ⟨npc, rfl, ht⟩)

/-- The errors of exec: a failed access check or a pc outside the space, which leave all but the record, or JALR's candidate, which
leaves the state JALR reads rs1 from (R183 to R187). -/
theorem exec_fault_cases {i : Instr} {s t : State} {e : MachineError} (h : exec i s = .fault (.err e t)) :
    (t = s.recordError e ∧ ((∃ kind a, checkAccess s kind a = .error e) ∨ ∃ target, narrowPc s target = .error e)) ∨
    ∃ d base imm c, i = .jalr d base imm ∧ e = .addressRangeError c ∧ t = (jalrReadState s d).recordError e := by
  cases i with
  | add d a b =>
    obtain ⟨hpc, ht⟩ := execAlu_fault.1 h
    exact .inl ⟨ht, .inr ⟨_, hpc⟩⟩
  | sub d a b =>
    obtain ⟨hpc, ht⟩ := execAlu_fault.1 h
    exact .inl ⟨ht, .inr ⟨_, hpc⟩⟩
  | lw d a imm =>
    obtain ⟨-, ht, haccess | ⟨-, hpc⟩⟩ := execLw_fault.1 h
    · exact .inl ⟨ht, .inl ⟨_, _, haccess⟩⟩
    · exact .inl ⟨ht, .inr ⟨_, hpc⟩⟩
  | sw a b imm =>
    obtain ⟨-, ht, haccess | ⟨-, hpc⟩⟩ := execSw_fault.1 h
    · exact .inl ⟨ht, .inl ⟨_, _, haccess⟩⟩
    · exact .inl ⟨ht, .inr ⟨_, hpc⟩⟩
  | jal d imm => exact absurd h execJal_fault
  | jalr d a imm =>
    obtain ⟨-, -, he, ht⟩ := execJalr_fault.1 h
    exact .inr ⟨d, a, imm, _, rfl, he, ht⟩
  | beq a b imm =>
    obtain ⟨-, hpc, ht⟩ := execBranch_fault.1 h
    split at hpc <;> exact .inl ⟨ht, .inr ⟨_, hpc⟩⟩
  | bne a b imm =>
    obtain ⟨-, hpc, ht⟩ := execBranch_fault.1 h
    split at hpc <;> exact .inl ⟨ht, .inr ⟨_, hpc⟩⟩

/-! The state JALR reads rs1 from (R163): with the link under link_first, the state before under read_first. -/

section
variable (s : State) (d : RegIdx)

theorem jalrReadState_linkFirst (h : s.params.jalrOrder = .linkFirst) :
    jalrReadState s d = s.writeReg d (linkValue s) := by
  rw [jalrReadState, h]

theorem jalrReadState_readFirst (h : s.params.jalrOrder = .readFirst) : jalrReadState s d = s := by
  rw [jalrReadState, h]

theorem jalrReadState_cases :
    (s.params.jalrOrder = .linkFirst ∧ jalrReadState s d = s.writeReg d (linkValue s)) ∨
    (s.params.jalrOrder = .readFirst ∧ jalrReadState s d = s) := by
  cases h : s.params.jalrOrder
  · exact .inl ⟨rfl, jalrReadState_linkFirst s d h⟩
  · exact .inr ⟨rfl, jalrReadState_readFirst s d h⟩

@[simp] theorem jalrReadState_pc : (jalrReadState s d).pc = s.pc := by
  obtain ⟨-, h⟩ | ⟨-, h⟩ := jalrReadState_cases s d <;> simp [h]

@[simp] theorem jalrReadState_mem : (jalrReadState s d).mem = s.mem := by
  obtain ⟨-, h⟩ | ⟨-, h⟩ := jalrReadState_cases s d <;> simp [h]

@[simp] theorem jalrReadState_params : (jalrReadState s d).params = s.params := by
  obtain ⟨-, h⟩ | ⟨-, h⟩ := jalrReadState_cases s d <;> simp [h]

@[simp] theorem jalrReadState_faultRecord : (jalrReadState s d).faultRecord = s.faultRecord := by
  obtain ⟨-, h⟩ | ⟨-, h⟩ := jalrReadState_cases s d <;> simp [h]

@[simp] theorem jalrReadState_started : (jalrReadState s d).started = s.started := by
  obtain ⟨-, h⟩ | ⟨-, h⟩ := jalrReadState_cases s d <;> simp [h]

end

/-- An error leaves all but the registers and the fault record, which keeps its first error (R187, R189). -/
theorem exec_fault_keeps {i : Instr} {s t : State} {e : MachineError} (h : exec i s = .fault (.err e t)) :
    t.pc = s.pc ∧ t.mem = s.mem ∧ t.params = s.params ∧ t.faultRecord = some (s.faultRecord.getD e) ∧
      t.started = s.started := by
  obtain ⟨rfl, -⟩ | ⟨d, base, imm, c, -, -, rfl⟩ := exec_fault_cases h <;> simp

/-- A next state keeps the parameters, the fault record and the started flag. -/
theorem exec_next_keeps {i : Instr} {s t : State} (h : exec i s = .next t) :
    t.params = s.params ∧ t.faultRecord = s.faultRecord ∧ t.started = s.started := by
  obtain ⟨d, r, npc, -, rfl⟩ | ⟨base, src, imm, npc, -, -, rfl⟩ | ⟨npc, -, rfl⟩ := exec_next_cases h <;> simp

/-- The fetch and the decode of a tick do not see that it has begun. -/
@[simp] theorem fetchInstr_begin (s : State) : fetchInstr s.begin = fetchInstr s := rfl

/-- A tick that fetches and decodes i is exec of i (R111). -/
theorem step_of_fetchInstr {s : State} {i : Instr} (h : fetchInstr s = .ok i) : step s = exec i s.begin := by
  unfold step
  rw [fetchInstr_begin, h]

/-- A fetched instruction is well-formed, as every decoded one is. -/
theorem wf_of_fetchInstr {s : State} {i : Instr} (h : fetchInstr s = .ok i) : i.wf = true := by
  obtain ⟨w, -, hw⟩ := fetchInstr_ok.1 h
  exact wf_of_decode hw

end Sys2Proof.Machine
end

section
/-! Legal states (10_state.md R23, R34): every update of a tick keeps them. -/

namespace Sys2Proof.Machine

section
variable {s : State}

theorem State.Inv.begin (h : s.Inv) : s.begin.Inv := h

theorem State.Inv.setPc (h : s.Inv) (npc : Addr) : (s.setPc npc).Inv := h

theorem State.Inv.recordError (h : s.Inv) (e : MachineError) : (s.recordError e).Inv := h

theorem State.Inv.setMem (h : s.Inv) {m : Memory} (hwf : Memory.wf m) (hbelow : Memory.below m s.params.memSize) :
    (s.setMem m).Inv := by
  obtain ⟨hparams, hzero, -, -⟩ := h
  exact ⟨hparams, hzero, hwf, hbelow⟩

/-- No write reaches the slot behind x0 (R24). -/
theorem State.writeReg_x_zero (s : State) (i : RegIdx) (v : Word) : (s.writeReg i v).x[0] = s.x[0] := by
  rw [State.writeReg_x_get, if_neg]
  rintro ⟨hslot, hi⟩
  exact hi (regIdx_ext hslot.symm)

theorem State.Inv.writeReg (h : s.Inv) (i : RegIdx) (v : Word) : (s.writeReg i v).Inv := by
  obtain ⟨hparams, hzero, hwf, hbelow⟩ := h
  refine ⟨?_, ?_, ?_, ?_⟩
  · rwa [State.writeReg_params]
  · rwa [State.writeReg_x_zero]
  · rwa [State.writeReg_mem]
  · rwa [State.writeReg_mem, State.writeReg_params]

theorem State.Inv.jalrReadState (h : s.Inv) (d : RegIdx) : (jalrReadState s d).Inv := by
  obtain ⟨-, heq⟩ | ⟨-, heq⟩ := jalrReadState_cases s d
  · rw [heq]
    exact h.writeReg d _
  · rwa [heq]

/-- A store that passes its bounds check keeps a state legal. -/
theorem State.Inv.store (h : s.Inv) {ea : Word} (hok : checkAccess s .store ea = .ok ()) (v : Word) :
    (s.setMem (Memory.writeWord s.mem ea.toNat v)).Inv := by
  obtain ⟨-, -, hwf, hbelow⟩ := id h
  exact h.setMem (Memory.wf_writeWord hwf _ _) (Memory.below_writeWord hbelow (checkAccess_ok.1 hok).1 _)

theorem State.Inv.exec_next (h : s.Inv) {i : Instr} {t : State} (ht : exec i s = .next t) : t.Inv := by
  obtain ⟨d, r, npc, -, rfl⟩ | ⟨base, src, imm, npc, -, hok, rfl⟩ | ⟨npc, -, rfl⟩ := exec_next_cases ht
  · exact (h.writeReg d r).setPc npc
  · exact (h.store hok _).setPc npc
  · exact h.setPc npc

theorem State.Inv.exec_fault (h : s.Inv) {i : Instr} {t : State} {e : MachineError}
    (ht : exec i s = .fault (.err e t)) : t.Inv := by
  obtain ⟨rfl, -⟩ | ⟨d, base, imm, c, -, -, rfl⟩ := exec_fault_cases ht
  · exact h.recordError e
  · exact (h.jalrReadState d).recordError e

theorem State.Inv.step_next (h : s.Inv) {t : State} (ht : step s = .next t) : t.Inv := by
  obtain ⟨i, -, hexec⟩ := Machine.step_next.1 ht
  exact h.begin.exec_next hexec

theorem State.Inv.step_fault (h : s.Inv) {t : State} {e : MachineError} (ht : step s = .fault (.err e t)) : t.Inv := by
  obtain ⟨-, rfl⟩ | ⟨i, -, hexec⟩ := Machine.step_fault.1 ht
  · exact h.begin.recordError e
  · exact h.begin.exec_fault hexec

end

/-- Settles O46: every next state and every state an error leaves comes from the one before by updates that keep it legal. -/
theorem stepKeepsLegalState : Obligations.StepKeepsLegalState :=
  fun _ h => ⟨fun _ => h.step_next, fun _ _ => h.step_fault⟩

/-- Construction clears the slot behind x0 and lists no byte (70_reset_and_hazards.md R200). -/
theorem inv_launch {l : Launch} (h : l.params.wf) : (State.launch l).Inv :=
  ⟨h, Vector.getElem_set_self _, Memory.wf_launch l, by simp⟩

/-- Settles O47: by inv_launch, of which State.reset is one case. -/
theorem launchIsLegal : Obligations.LaunchIsLegal :=
  ⟨fun _ => inv_launch, inv_launch (by decide)⟩

end Sys2Proof.Machine
end

section
/-! Even program counters (10_state.md R30). -/

namespace Sys2Proof.Machine

/-- Narrowing to 20 bits keeps the parity. -/
theorem toNat_setWidth_mod_two (t : Word) : (t.setWidth 20).toNat % 2 = t.toNat % 2 := by
  rw [BitVec.toNat_setWidth]
  omega

/-- A value with bit 0 clear is even. -/
theorem toNat_mod_two_of_getLsbD {v : Word} (h : v.getLsbD 0 = false) : v.toNat % 2 = 0 := by
  rw [BitVec.getLsbD, Nat.testBit_zero] at h
  simpa using h

/-- An even offset from an even pc is even (43_control_flow.md R160). -/
theorem relativeTarget_even {s : State} {imm : Word} (hpc : s.pc.toNat % 2 = 0) (himm : imm.getLsbD 0 = false) :
    (relativeTarget s imm).toNat % 2 = 0 := by
  have hoff := toNat_mod_two_of_getLsbD himm
  rw [relativeTarget, BitVec.toNat_add, BitVec.toNat_setWidth]
  omega

/-- JALR's candidate is even, since its bit 0 is cleared (R162). -/
theorem jalrCandidate_even (s : State) (base : RegIdx) (imm : Word) : (jalrCandidate s base imm).toNat % 2 = 0 :=
  toNat_mod_two_of_getLsbD (by simp [jalrCandidate])

/-- The sequential pc is even from an even pc. -/
theorem seqPc_even {s : State} {npc : Addr} (hpc : s.pc.toNat % 2 = 0) (h : seqPc s = .ok npc) : npc.toNat % 2 = 0 := by
  rw [(narrowPc_ok.1 h).2, toNat_setWidth_mod_two]
  exact relativeTarget_even (imm := 4#32) hpc rfl

/-- Either pc a well-formed branch answers is even from an even pc. -/
theorem execBranch_even {taken : Bool} {imm : Word} {s t : State} (hpc : s.pc.toNat % 2 = 0)
    (h : execBranch taken imm s = .next t) : t.pc.toNat % 2 = 0 := by
  obtain ⟨hrep, npc, hnpc, rfl⟩ := execBranch_next.1 h
  obtain ⟨-, -, himm⟩ := representable_B_iff.1 hrep
  split at hnpc
  · rw [State.setPc_pc, (narrowPc_ok.1 hnpc).2, toNat_setWidth_mod_two]
    exact relativeTarget_even hpc himm
  · exact seqPc_even hpc hnpc

/-- exec goes from an even pc to an even pc: it refuses the immediates that would not. -/
theorem exec_even {i : Instr} {s t : State} (hpc : s.pc.toNat % 2 = 0) (h : exec i s = .next t) : t.pc.toNat % 2 = 0 := by
  cases i with
  | add d a b =>
    obtain ⟨npc, hnpc, rfl⟩ := execAlu_next.1 h
    exact seqPc_even hpc hnpc
  | sub d a b =>
    obtain ⟨npc, hnpc, rfl⟩ := execAlu_next.1 h
    exact seqPc_even hpc hnpc
  | lw d a imm =>
    obtain ⟨-, -, npc, hnpc, rfl⟩ := execLw_next.1 h
    exact seqPc_even hpc hnpc
  | sw a b imm =>
    obtain ⟨-, -, npc, hnpc, rfl⟩ := execSw_next.1 h
    exact seqPc_even hpc hnpc
  | jal d imm =>
    obtain ⟨hrep, rfl⟩ := execJal_next.1 h
    obtain ⟨-, -, himm⟩ := representable_J_iff.1 hrep
    rw [State.setPc_pc, jalTarget, toNat_setWidth_mod_two]
    exact relativeTarget_even hpc himm
  | jalr d a imm =>
    obtain ⟨-, -, rfl⟩ := execJalr_next.1 h
    rw [State.setPc_pc, toNat_setWidth_mod_two]
    exact jalrCandidate_even _ a imm
  | beq a b imm => exact execBranch_even hpc h
  | bne a b imm => exact execBranch_even hpc h

/-- An error leaves the pc of the state before the tick. -/
theorem step_fault_pc {s t : State} {e : MachineError} (h : step s = .fault (.err e t)) : t.pc = s.pc := by
  obtain ⟨-, rfl⟩ | ⟨i, -, hexec⟩ := step_fault.1 h
  · rfl
  · exact (exec_fault_keeps (s := s.begin) hexec).1

/-- Settles O49: a next pc is even by exec_even, and an error leaves pc. -/
theorem evenPcIsKept : Obligations.EvenPcIsKept := by
  refine fun s hpc => ⟨fun t h => ?_, fun e t h => ?_⟩
  · obtain ⟨i, -, hexec⟩ := step_next.1 h
    exact exec_even (s := s.begin) hpc hexec
  · rwa [step_fault_pc h]

end Sys2Proof.Machine
end

section
/-! The six mutators (30_encoding.md R63). -/

namespace Sys2Proof

/-- A write of a field keeps every bit outside it (R63). -/
theorem getLsbD_withBits_outside {len : Nat} (w : Word) (lo : Nat) (v : BitVec len) {n : Nat} (hn : n < 32)
    (h : ¬(lo ≤ n ∧ n < lo + len)) : (withBits w lo v).getLsbD n = w.getLsbD n := by
  rw [getLsbD_withBits w lo v n hn, if_neg h]

/-- Writing what a field holds changes nothing (R63). -/
@[simp] theorem withBits_bits (w : Word) (lo len : Nat) : withBits w lo (bits w lo len) = w := by
  refine BitVec.eq_of_getLsbD_eq fun n hn => ?_
  rw [getLsbD_withBits w lo _ n hn]
  split
  case isTrue hin =>
    have hpos : lo + (n - lo) = n := by omega
    have hlen : n - lo < len := by omega
    rw [getLsbD_bits, hpos, decide_eq_true hlen, Bool.true_and]
  case isFalse => rfl

/-- Settles O2: each mutator is withBits at its field, and the fields are pairwise disjoint. -/
theorem fieldMutatorLaws : Obligations.FieldMutatorLaws := by
  refine ⟨fun w a b c d e f => ?laws, ?_, ?_, ?_, ?_, ?_, ?_, fun lo len _ w v n hn => getLsbD_withBits_outside w lo v hn⟩
  case laws =>
    simp (disch := decide) only [opcode, rd, funct3, rs1, rs2, funct7, withOpcode, withRd, withFunct3, withRs1, withRs2,
      withFunct7, bits_withBits_same, withBits_bits, and_self]
  all_goals
    intro w a
    simp (disch := decide) only [opcode, rd, funct3, rs1, rs2, funct7, withOpcode, withRd, withFunct3, withRs1, withRs2,
      withFunct7, bits_withBits_disjoint, true_and]
    intro n hn
    intros
    exact getLsbD_withBits_outside w _ a (by omega) (by omega)

end Sys2Proof
end

section
/-! Immediates bit by bit, and the bits a kind owns (30_encoding.md R71 to R80). -/

namespace Sys2Proof

/-- Settles O6: by the read-back of each kind. -/
theorem rawCodecKeepsStorableBits : Obligations.RawCodecKeepsStorableBits :=
  fun w v => ⟨immediate_withImmediate_I w v, immediate_withImmediate_S w v, immediate_withImmediate_B w v,
    immediate_withImmediate_U w v, immediate_withImmediate_J w v⟩

/-- Bit n of a sign extension is the bit there, or the topmost one (R76). -/
theorem getLsbD_signExtend_min {m n : Nat} (x : BitVec (m + 1)) (hn : n < 32) :
    (x.signExtend 32).getLsbD n = x.getLsbD (min n m) := by
  rw [BitVec.getLsbD_signExtend, decide_eq_true hn, Bool.true_and, BitVec.msb_eq_getLsbD_last, Nat.add_sub_cancel]
  split
  case isTrue h => rw [Nat.min_eq_left (Nat.le_of_lt_succ h)]
  case isFalse h => rw [Nat.min_eq_right (by omega)]

/-- Bit n of a word with a field written from a value's field. -/
theorem getLsbD_withBits_bits (w v : Word) (lo lo' len : Nat) {n : Nat} (hn : n < 32) :
    (withBits w lo (bits v lo' len)).getLsbD n = if lo ≤ n ∧ n < lo + len then v.getLsbD (lo' + (n - lo)) else w.getLsbD n := by
  rw [getLsbD_withBits w lo _ n hn, getLsbD_bits]
  split
  case isTrue h =>
    have hlen : n - lo < len := by omega
    rw [decide_eq_true hlen, Bool.true_and]
  case isFalse => rfl

section
variable (w : Word) {n : Nat} (hn : n < 32)
include hn

theorem getLsbD_immediate_I : (immediate w .I).getLsbD n = if n < 11 then w.getLsbD (20 + n) else w.getLsbD 31 := by
  simp only [immediate, getLsbD_signExtend_min _ hn, BitVec.getLsbD_append, getLsbD_bits]
  rcases Nat.le_total n 11 with h | h <;> simp only [Nat.reduceAdd, h, Nat.min_eq_left, Nat.min_eq_right] <;> grind

theorem getLsbD_immediate_S : (immediate w .S).getLsbD n =
    if n < 5 then w.getLsbD (7 + n) else if n < 11 then w.getLsbD (20 + n) else w.getLsbD 31 := by
  simp only [immediate, getLsbD_signExtend_min _ hn, BitVec.getLsbD_append, getLsbD_bits]
  rcases Nat.le_total n 11 with h | h <;> simp only [Nat.reduceAdd, h, Nat.min_eq_left, Nat.min_eq_right] <;> grind

theorem getLsbD_immediate_B : (immediate w .B).getLsbD n =
    if n = 0 then false else if n < 5 then w.getLsbD (7 + n) else if n < 11 then w.getLsbD (20 + n)
    else if n = 11 then w.getLsbD 7 else w.getLsbD 31 := by
  simp only [immediate, getLsbD_signExtend_min _ hn, BitVec.getLsbD_append, getLsbD_bits]
  rcases Nat.le_total n 12 with h | h <;> simp only [Nat.reduceAdd, h, Nat.min_eq_left, Nat.min_eq_right] <;> grind

theorem getLsbD_immediate_U : (immediate w .U).getLsbD n = if n < 12 then false else w.getLsbD n := by
  simp only [immediate, BitVec.getLsbD_append, getLsbD_bits]
  grind

theorem getLsbD_immediate_J : (immediate w .J).getLsbD n =
    if n = 0 then false else if n < 11 then w.getLsbD (20 + n) else if n = 11 then w.getLsbD 20
    else if n < 20 then w.getLsbD n else w.getLsbD 31 := by
  simp only [immediate, getLsbD_signExtend_min _ hn, BitVec.getLsbD_append, getLsbD_bits]
  rcases Nat.le_total n 20 with h | h <;> simp only [Nat.reduceAdd, h, Nat.min_eq_left, Nat.min_eq_right] <;> grind

end

/-- Settles O3: a group's bit of an appended value is a bit of the word, kind by kind. -/
theorem immediateBitPlacement : Obligations.ImmediateBitPlacement :=
  fun w _ hn => ⟨getLsbD_immediate_I w hn, getLsbD_immediate_S w hn, getLsbD_immediate_B w hn, getLsbD_immediate_U w hn,
    getLsbD_immediate_J w hn⟩

/-- Inserting 0 into all ones clears the bits a kind owns: each of its groups is written from the value (R80). -/
theorem getLsbD_withImmediate_zero (k : ImmKind) {n : Nat} (hn : n < 32) :
    (withImmediate 0xFFFFFFFF#32 0#32 k).getLsbD n = !ownsBit k n := by
  have hones : (0xFFFFFFFF#32).getLsbD n = true := (BitVec.getLsbD_allOnes (v := 32)).trans (decide_eq_true hn)
  cases k <;> simp only [withImmediate, getLsbD_withBits_bits _ _ _ _ _ hn, hones, BitVec.getLsbD_zero, ownsBit] <;> grind

/-- Settles O5: insertion keeps the bits a kind does not own and writes those it owns. -/
theorem insertionTouchesOwnedBitsOnly : Obligations.InsertionTouchesOwnedBitsOnly :=
  fun k w v _ hn => ⟨getLsbD_withImmediate_of_not_owned w v hn, getLsbD_withImmediate_zero k hn⟩

end Sys2Proof
end

section
/-! What decodes and what is encoded (30_encoding.md R81 to R87). -/

namespace Sys2Proof

/-- A word matches i's row exactly when it decodes to i's variant, with the operands the word gives (R82, R87). -/
theorem matches_row_iff_decode {w : Word} (i : Instr) : w &&& i.maskBits = i.matchBits ↔ decode w = .ok (i.readFrom w) := by
  rw [Instr.matches_row_iff]
  refine ⟨decode_of_hasRowFields, fun h => ?_⟩
  have hrow := (hasRowFields_of_decode h).1
  cases i <;> exact hrow

/-- Settles O7: matches_row_iff_decode at each row. -/
theorem opcodeMapDecides : Obligations.OpcodeMapDecides :=
  fun _ => ⟨matches_row_iff_decode (.add 0 0 0), matches_row_iff_decode (.sub 0 0 0), matches_row_iff_decode (.lw 0 0 0),
    matches_row_iff_decode (.sw 0 0 0), matches_row_iff_decode (.jal 0 0), matches_row_iff_decode (.jalr 0 0 0),
    matches_row_iff_decode (.beq 0 0 0), matches_row_iff_decode (.bne 0 0 0)⟩

/-- Settles O10: by wf_of_decode. -/
theorem decodedInstructionsAreWellFormed : Obligations.DecodedInstructionsAreWellFormed :=
  fun _ _ => wf_of_decode

/-- What encode answers decodes to the instruction (R86). -/
theorem decode_of_encode {i : Instr} {w : Word} (h : encode i = .ok w) : decode w = .ok i := by
  obtain ⟨hwf, rfl⟩ := encode_ok.1 h
  exact decode_encodeBits hwf

/-- Settles O9: construction and encoding refuse what is not well-formed, no decoded instruction is such, and encode answers the
one word that decodes to the instruction. -/
theorem illFormedIsNotEncoded : Obligations.IllFormedIsNotEncoded := by
  refine ⟨fun i hill => ⟨construct_error.2 ⟨hill, rfl⟩, encode_error.2 ⟨hill, rfl⟩, fun w hw => ?_⟩,
    fun i hwf => construct_ok.2 ⟨hwf, rfl⟩, fun i => ⟨?_, ?_⟩, fun i w => decode_of_encode⟩
  · rw [wf_of_decode hw] at hill
    cases hill
  · rintro ⟨w, hw⟩
    exact ⟨w, decode_of_encode hw⟩
  · rintro ⟨w, hw⟩
    exact ⟨w, encode_of_decode hw⟩

/-- Settles O11: the decoder evaluated on each word. -/
theorem specWordsDecode : Obligations.SpecWordsDecode :=
  ⟨by decide, by decide, by decide, by decide, by decide, by decide, by decide, by decide⟩

end Sys2Proof
end

section
/-! Words in memory (20_memory.md R41 to R43) and the canonical form. -/

namespace Sys2Proof

/-- The four bytes of a word, most significant first, are the word. -/
@[simp] theorem wordOfBytes_byteOfWord (w : Word) :
    wordOfBytes (byteOfWord w 0) (byteOfWord w 1) (byteOfWord w 2) (byteOfWord w 3) = w :=
  calc (bits w 24 8 ++ bits w 16 8 ++ bits w 8 8 ++ bits w 0 8 : Word)
    _ = bits w 0 32 := by simp (disch := decide) only [bits_append_bits]
    _ = w := BitVec.extractLsb'_eq_self

/-- The bytes of an assembled word, most significant first, are those it was assembled from. -/
theorem bytes_wordOfBytes (b0 b1 b2 b3 : Byte) :
    (wordOfBytes b0 b1 b2 b3).extractLsb' 24 8 = b0 ∧ (wordOfBytes b0 b1 b2 b3).extractLsb' 16 8 = b1 ∧
      (wordOfBytes b0 b1 b2 b3).extractLsb' 8 8 = b2 ∧ (wordOfBytes b0 b1 b2 b3).extractLsb' 0 8 = b3 := by
  have hparts := (wordOfBytes_byteOfWord (wordOfBytes b0 b1 b2 b3)).symm
  obtain ⟨hparts, h3⟩ := append_inj (m := 24) (n := 8).1 hparts
  obtain ⟨hparts, h2⟩ := append_inj (m := 16) (n := 8).1 hparts
  obtain ⟨h0, h1⟩ := append_inj (m := 8) (n := 8).1 hparts
  exact ⟨h0.symm, h1.symm, h2.symm, h3.symm⟩

end Sys2Proof

namespace Sys2Proof.Machine

/-- A byte after a word is written: one of the word's four, or the byte there before (R42). -/
theorem Memory.read_writeWord {m : Memory} (hm : Memory.wf m) (a b : Nat) (v : Word) :
    Memory.read (Memory.writeWord m a v) b =
      if b = a then byteOfWord v 0 else if b = a + 1 then byteOfWord v 1 else if b = a + 2 then byteOfWord v 2
      else if b = a + 3 then byteOfWord v 3 else Memory.read m b := by
  have h0 := Memory.wf_write hm a (byteOfWord v 0)
  have h1 := Memory.wf_write h0 (a + 1) (byteOfWord v 1)
  have h2 := Memory.wf_write h1 (a + 2) (byteOfWord v 2)
  rw [Memory.writeWord, Memory.read_write _ h2, Memory.read_write _ h1, Memory.read_write _ h0, Memory.read_write _ hm]
  grind

/-- A byte outside the four that are written keeps its value (R42). -/
theorem Memory.read_writeWord_outside {m : Memory} (hm : Memory.wf m) {a b : Nat} (v : Word) (h : ¬(a ≤ b ∧ b < a + 4)) :
    Memory.read (Memory.writeWord m a v) b = Memory.read m b := by
  rw [Memory.read_writeWord hm, if_neg (by omega), if_neg (by omega), if_neg (by omega), if_neg (by omega)]

/-- A word is read from four bytes alone. -/
theorem Memory.readWord_congr {m n : Memory} {a : Nat} (h : ∀ k, k < 4 → Memory.read m (a + k) = Memory.read n (a + k)) :
    Memory.readWord m a = Memory.readWord n a := by
  have h0 : Memory.read m a = Memory.read n a := h 0 (by decide)
  rw [Memory.readWord, Memory.readWord, h0, h 1 (by decide), h 2 (by decide), h 3 (by decide)]

/-- A written word reads back (R41, R42). -/
theorem Memory.readWord_writeWord {m : Memory} (hm : Memory.wf m) (a : Nat) (v : Word) :
    Memory.readWord (Memory.writeWord m a v) a = v := by
  simp [Memory.readWord, Memory.read_writeWord hm]

/-- Settles O15: by bytes_wordOfBytes and read_writeWord. -/
theorem memoryIsBigEndian : Obligations.MemoryIsBigEndian :=
  ⟨fun _ _ => bytes_wordOfBytes _ _ _ _, fun _ a b v hm => Memory.read_writeWord hm a b v⟩

/-- A canonical memory with a first cell: the rest is canonical, and reads as 0 at that cell's address and below. -/
theorem Memory.wf_cons {c : Host.Cell} {rest : Memory} (h : Memory.wf (c :: rest)) :
    Memory.wf rest ∧ c.2 ≠ 0#8 ∧ ∀ a, a ≤ c.1 → Memory.read rest a = 0#8 := by
  obtain ⟨hrising, hnonzero⟩ := h
  obtain ⟨hfirst, hrest⟩ := List.pairwise_cons.1 hrising
  refine ⟨⟨hrest, fun d hd => hnonzero d (List.mem_cons_of_mem c hd)⟩, hnonzero c List.mem_cons_self, fun a ha => ?_⟩
  exact Memory.read_of_lt rest a fun d hd => Nat.lt_of_le_of_lt ha (hfirst d hd)

/-- The first cell reads back at its address. -/
theorem Memory.read_cons_self (c : Host.Cell) (rest : Memory) : Memory.read (c :: rest) c.1 = c.2 :=
  if_pos rfl

theorem Memory.read_cons_ne (c : Host.Cell) (rest : Memory) {a : Nat} (h : c.1 ≠ a) :
    Memory.read (c :: rest) a = Memory.read rest a :=
  if_neg h

/-- Canonical memories that read alike begin at the same address: the byte the lower one lists first is not 0 in the other. -/
theorem Memory.first_le_of_read_eq {c d : Host.Cell} {m n : Memory} (hm : Memory.wf (c :: m)) (hn : Memory.wf (d :: n))
    (h : ∀ a, Memory.read (c :: m) a = Memory.read (d :: n) a) : d.1 ≤ c.1 := by
  by_contra hlt
  obtain ⟨-, hnonzero, -⟩ := Memory.wf_cons hm
  obtain ⟨-, -, hzero⟩ := Memory.wf_cons hn
  apply hnonzero
  calc c.2
    _ = Memory.read (c :: m) c.1 := (Memory.read_cons_self c m).symm
    _ = Memory.read (d :: n) c.1 := h c.1
    _ = Memory.read n c.1 := Memory.read_cons_ne d n (by omega)
    _ = 0#8 := hzero c.1 (by omega)

/-- Canonical memories that read alike at every address are the same list. -/
theorem Memory.ext_of_wf {m n : Memory} (hm : Memory.wf m) (hn : Memory.wf n)
    (h : ∀ a, Memory.read m a = Memory.read n a) : m = n := by
  induction m generalizing n with
  | nil =>
    cases n with
    | nil => rfl
    | cons d n =>
      obtain ⟨-, hnonzero, -⟩ := Memory.wf_cons hn
      exact absurd ((Memory.read_cons_self d n).symm.trans (h d.1).symm) hnonzero
  | cons c m ih =>
    cases n with
    | nil =>
      obtain ⟨-, hnonzero, -⟩ := Memory.wf_cons hm
      exact absurd ((Memory.read_cons_self c m).symm.trans (h c.1)) hnonzero
    | cons d n =>
      have haddr : c.1 = d.1 :=
        Nat.le_antisymm (Memory.first_le_of_read_eq hn hm fun a => (h a).symm) (Memory.first_le_of_read_eq hm hn h)
      have hbyte : c.2 = d.2 := by
        have hfirst := h c.1
        rwa [Memory.read_cons_self, haddr, Memory.read_cons_self] at hfirst
      obtain ⟨hwfm, -, hzerom⟩ := Memory.wf_cons hm
      obtain ⟨hwfn, -, hzeron⟩ := Memory.wf_cons hn
      have hrest : m = n := by
        refine ih hwfm hwfn fun a => ?_
        by_cases ha : a = c.1
        · rw [hzerom a (by omega), hzeron a (by omega)]
        · have hread := h a
          rwa [Memory.read_cons_ne c m (Ne.symm ha), Memory.read_cons_ne d n (by omega)] at hread
      rw [hrest, Prod.ext haddr hbyte]

/-- Settles O16: by ext_of_wf. -/
theorem memoryFormIsUnique : Obligations.MemoryFormIsUnique :=
  fun _ _ => Memory.ext_of_wf

end Sys2Proof.Machine
end

section
/-! The values instructions compute, as numbers (40_cycle.md R116, R117; 41_alu.md R140 to R145; 43_control_flow.md R160, R162). -/

namespace Sys2Proof.Machine

/-! Addresses and targets. -/

/-- The sequential pc modulo the address space (R116). -/
theorem ofNat_pc_add_four (pc : Addr) : BitVec.ofNat 20 ((pc.toNat + 4) % 2 ^ 20) = pc + 4#20 := by
  apply BitVec.eq_of_toNat_eq
  simp [BitVec.toNat_add]

/-- The link does not wrap (R117). -/
theorem linkValue_eq_ofNat (s : State) : linkValue s = BitVec.ofNat 32 (s.pc.toNat + 4) := by
  apply BitVec.eq_of_toNat_eq
  simp [linkValue, BitVec.toNat_add]

theorem toNat_effectiveAddress (s : State) (base : RegIdx) (imm : Word) :
    (effectiveAddress s base imm).toNat = ((s.readReg base).toNat + imm.toNat) % 2 ^ 32 :=
  BitVec.toNat_add _ _

/-- The pc-relative target is the signed sum modulo 2^32 (R160). -/
theorem relativeTarget_eq_ofInt (s : State) (imm : Word) :
    relativeTarget s imm = BitVec.ofInt 32 (s.pc.toNat + imm.toInt) := by
  rw [BitVec.ofInt_add, BitVec.ofInt_natCast, BitVec.ofNat_toNat, BitVec.ofInt_toInt, relativeTarget]

/-- Narrowing a signed number modulo 2^32 is reading it modulo 2^20. -/
theorem setWidth_ofInt (x : Int) : (BitVec.ofInt 32 x).setWidth 20 = BitVec.ofInt 20 x := by
  apply BitVec.eq_of_toNat_eq
  rw [BitVec.toNat_setWidth, BitVec.toNat_ofInt, BitVec.toNat_ofInt]
  omega

/-- A narrowed pc-relative target is the signed sum modulo 2^20 (R160, R161). -/
theorem setWidth_relativeTarget (s : State) (imm : Word) :
    (relativeTarget s imm).setWidth 20 = BitVec.ofInt 20 (s.pc.toNat + imm.toInt) := by
  rw [relativeTarget_eq_ofInt, setWidth_ofInt]

/-- A branch target is inside the address space exactly when the signed sum is: a representable offset reaches no further than
one address space past either end. -/
theorem relativeTarget_lt_iff (s : State) {imm : Word} (h : representable .B imm = true) :
    (relativeTarget s imm).toNat < 1048576 ↔ 0 ≤ s.pc.toNat + imm.toInt ∧ s.pc.toNat + imm.toInt < 2 ^ 20 := by
  obtain ⟨hlo, hhi, -⟩ := representable_B_iff.1 h
  have hpc := s.pc.isLt
  rw [relativeTarget_eq_ofInt, BitVec.toNat_ofInt]
  omega

/-- Clearing bit 0 rounds down to an even number (R162). -/
theorem toNat_jalrCandidate (s : State) (base : RegIdx) (imm : Word) :
    (jalrCandidate s base imm).toNat = ((s.readReg base).toNat + imm.toNat) % 2 ^ 32 / 2 * 2 := by
  have heven := jalrCandidate_even s base imm
  have hhalf : (jalrCandidate s base imm).toNat / 2 = ((s.readReg base).toNat + imm.toNat) % 2 ^ 32 / 2 := by
    have hmask : (0xFFFFFFFE#32).toNat / 2 = 2 ^ 31 - 1 := by decide
    rw [jalrCandidate, BitVec.toNat_and, Nat.and_div_two, hmask, Nat.and_two_pow_sub_one_eq_mod, BitVec.toNat_add]
    omega
  omega

/-- What JALR reads as its base: the link where link_first has just written it there, else the register (R163). -/
theorem jalrReadState_readReg (s : State) (d base : RegIdx) :
    (jalrReadState s d).readReg base =
      if s.params.jalrOrder = .linkFirst ∧ base = d ∧ d ≠ 0 then linkValue s else s.readReg base := by
  obtain ⟨horder, hstate⟩ | ⟨horder, hstate⟩ := jalrReadState_cases s d
  · rw [hstate, horder]
    by_cases hd : base = d ∧ d ≠ 0
    · obtain ⟨rfl, hbase⟩ := hd
      rw [State.readReg_writeReg_same s base _ hbase, if_pos ⟨rfl, rfl, hbase⟩]
    · rw [if_neg (by tauto), State.readReg_writeReg]
      by_cases hzero : base = 0
      · rw [if_pos hzero, hzero]
        rfl
      · have hne : base ≠ d := fun h => hd ⟨h, h ▸ hzero⟩
        rw [if_neg hzero, if_neg hne]
  · rw [hstate, horder, if_neg (by simp)]

/-! Results of ADD and SUB. -/

section
variable (a b c : Word)

theorem aluAdd_saturating : aluAdd .saturating a b = BitVec.ofNat 32 (min (a.toNat + b.toNat) 0xFFFFFFFF) := by
  rw [← toNat_saturatingAdd, BitVec.ofNat_toNat, BitVec.setWidth_eq]
  rfl

theorem aluAdd_wrapping : aluAdd .wrapping a b = BitVec.ofNat 32 ((a.toNat + b.toNat) % 2 ^ 32) := by
  rw [← BitVec.toNat_add, BitVec.ofNat_toNat, BitVec.setWidth_eq]
  rfl

theorem aluSub_saturating : aluSub .saturating a b = BitVec.ofNat 32 (a.toNat - b.toNat) := by
  rw [← toNat_saturatingSub, BitVec.ofNat_toNat, BitVec.setWidth_eq]
  rfl

theorem aluSub_wrapping : aluSub .wrapping a b = BitVec.ofNat 32 ((a.toNat + 2 ^ 32 - b.toNat) % 2 ^ 32) := by
  have hb := b.isLt
  have hsub : a.toNat + 2 ^ 32 - b.toNat = 2 ^ 32 - b.toNat + a.toNat := by omega
  rw [hsub, ← BitVec.toNat_sub, BitVec.ofNat_toNat, BitVec.setWidth_eq]
  rfl

/-- Adding 0 gives the other operand in both modes. -/
theorem aluAdd_zero (m : ArithMode) : aluAdd m a 0#32 = a := by
  apply BitVec.eq_of_toNat_eq
  cases m with
  | saturating => exact (toNat_saturatingAdd a 0#32).trans (Nat.min_eq_left (Nat.le_of_lt_succ a.isLt))
  | wrapping => simp [aluAdd]

/-- Subtracting from 0 clamps at 0. -/
theorem aluSub_zero_left : aluSub .saturating 0#32 a = 0#32 := by
  rw [aluSub_saturating, BitVec.toNat_zero, Nat.zero_sub]

/-! The laws of R145, each on the unsigned numbers. -/

theorem saturatingAdd_comm : saturatingAdd a b = saturatingAdd b a := by
  apply BitVec.eq_of_toNat_eq
  rw [toNat_saturatingAdd, toNat_saturatingAdd, Nat.add_comm]

theorem toNat_saturatingAdd_three :
    (saturatingAdd (saturatingAdd a b) c).toNat = min (a.toNat + b.toNat + c.toNat) 0xFFFFFFFF := by
  rw [toNat_saturatingAdd, toNat_saturatingAdd]
  omega

theorem saturatingAdd_assoc : saturatingAdd (saturatingAdd a b) c = saturatingAdd a (saturatingAdd b c) := by
  apply BitVec.eq_of_toNat_eq
  rw [toNat_saturatingAdd_three, toNat_saturatingAdd, toNat_saturatingAdd]
  omega

theorem saturatingAdd_mono {a b : Word} (h : a ≤ b) : saturatingAdd a c ≤ saturatingAdd b c := by
  have hab : a.toNat ≤ b.toNat := BitVec.le_def.1 h
  rw [BitVec.le_def, toNat_saturatingAdd, toNat_saturatingAdd]
  omega

theorem saturatingSub_eq_zero {a b : Word} (h : a ≤ b) : saturatingSub a b = 0 := by
  apply BitVec.eq_of_toNat_eq
  rw [toNat_saturatingSub]
  exact Nat.sub_eq_zero_of_le (BitVec.le_def.1 h)

/-- Subtraction undoes addition exactly where the sum is not clamped. -/
theorem saturatingSub_saturatingAdd_iff :
    saturatingSub (saturatingAdd a b) b = a ↔ a.toNat + b.toNat ≤ 0xFFFFFFFF := by
  rw [← BitVec.toNat_inj, toNat_saturatingSub, toNat_saturatingAdd]
  omega

end

/-- Settles O27: each law on the unsigned numbers, and the two examples evaluated. -/
theorem saturatingArithmeticLaws : Obligations.SaturatingArithmeticLaws :=
  ⟨fun a b c => ⟨saturatingAdd_comm a b, saturatingAdd_assoc a b c, toNat_saturatingAdd_three a b c, saturatingAdd_mono c,
    aluAdd_zero a .saturating, saturatingSub_eq_zero, saturatingSub_saturatingAdd_iff a b⟩, by decide, by decide⟩

end Sys2Proof.Machine
end

section
/-! What each instruction answers where it completes (41_alu.md to 43_control_flow.md). -/

namespace Sys2Proof.Machine

/-- The sequential pc where it wraps or stays inside the space (R116). -/
theorem seqPc_eq {s : State} (h : s.params.pcOverflow = .wrap ∨ s.pc.toNat + 4 < 2 ^ 20) :
    seqPc s = .ok (BitVec.ofNat 20 ((s.pc.toNat + 4) % 2 ^ 20)) :=
  seqPc_ok.2 ⟨h, ofNat_pc_add_four s.pc⟩

/-- A branch target where it wraps or stays inside the space (R160). -/
theorem branchTarget_eq {s : State} {imm : Word} (hrep : representable .B imm = true)
    (h : s.params.pcOverflow = .wrap ∨ (0 ≤ s.pc.toNat + imm.toInt ∧ s.pc.toNat + imm.toInt < 2 ^ 20)) :
    branchTarget s imm = .ok (BitVec.ofInt 20 (s.pc.toNat + imm.toInt)) :=
  narrowPc_ok.2 ⟨h.imp_right (relativeTarget_lt_iff s hrep).2, (setWidth_relativeTarget s imm).symm⟩

/-- A load or store of a word inside memory passes its checks (20_memory.md R46, R47). -/
theorem checkAccess_effectiveAddress {s : State} {base : RegIdx} {imm : Word} {ea : Nat} (kind : AccessKind)
    (hea : (effectiveAddress s base imm).toNat = ea) (hin : ea + 3 < s.params.memSize)
    (halign : s.params.misaligned = .bytewise ∨ ea % 4 = 0) :
    checkAccess s kind (effectiveAddress s base imm) = .ok () := by
  subst hea
  exact checkAccess_ok.2 ⟨hin, halign⟩

/-- Settles O18: the sequential pc, and the sum in each mode. -/
theorem addResult : Obligations.AddResult := by
  intro d a b s hpc
  refine execAlu_next.2 ⟨_, seqPc_eq hpc, ?_⟩
  cases s.params.arithMode with
  | saturating => rw [aluAdd_saturating]
  | wrapping => rw [aluAdd_wrapping]

/-- Settles O19: the sequential pc, and the difference in each mode. -/
theorem subResult : Obligations.SubResult := by
  intro d a b s hpc
  refine execAlu_next.2 ⟨_, seqPc_eq hpc, ?_⟩
  cases s.params.arithMode with
  | saturating => rw [aluSub_saturating]
  | wrapping => rw [aluSub_wrapping]

/-- Settles O20: LW's checks pass, and the word at the effective address is its four bytes. -/
theorem lwResult : Obligations.LwResult := by
  intro d base imm s ea hea hrep hin halign hpc
  rw [← toNat_effectiveAddress] at hea
  refine execLw_next.2 ⟨hrep, checkAccess_effectiveAddress .load hea.symm hin halign, _, seqPc_eq hpc, ?_⟩
  rw [hea]
  rfl

/-- Settles O21: SW's checks pass, and a byte after the store is read_writeWord's. -/
theorem swResult : Obligations.SwResult := by
  intro base src imm s ea hea hrep hin halign hpc hwf
  rw [← toNat_effectiveAddress] at hea
  have haccess := checkAccess_effectiveAddress .store hea.symm hin halign
  refine ⟨_, execSw_next.2 ⟨hrep, haccess, _, seqPc_eq hpc, rfl⟩, rfl, fun b => ?_⟩
  rw [hea]
  exact Memory.read_writeWord hwf _ b _

/-- Settles O22: the link and the narrowed target as numbers. -/
theorem jalResult : Obligations.JalResult := by
  intro d imm s hrep
  refine execJal_next.2 ⟨hrep, ?_⟩
  rw [linkValue_eq_ofNat, jalTarget, setWidth_relativeTarget]

/-- JALR's candidate as a number, with the base it reads under either order (R162, R163). -/
theorem toNat_jalrCandidate_readState (s : State) (d base : RegIdx) (imm : Word) :
    (jalrCandidate (jalrReadState s d) base imm).toNat =
      ((if s.params.jalrOrder = .linkFirst ∧ base = d ∧ d ≠ 0 then s.pc.toNat + 4 else (s.readReg base).toNat) + imm.toNat)
        % 2 ^ 32 / 2 * 2 := by
  have hlink : (linkValue s).toNat = s.pc.toNat + 4 := by
    have hpc := s.pc.isLt
    rw [linkValue_eq_ofNat, BitVec.toNat_ofNat]
    omega
  rw [toNat_jalrCandidate, jalrReadState_readReg, apply_ite BitVec.toNat, hlink]

/-- Settles O23: a candidate below 2^20 is not narrowed further. -/
theorem jalrResult : Obligations.JalrResult := by
  intro d base imm s c hc hrep hlt
  rw [← toNat_jalrCandidate_readState] at hc
  refine execJalr_next.2 ⟨hrep, hc ▸ hlt, ?_⟩
  rw [linkValue_eq_ofNat, hc, BitVec.ofNat_toNat]

/-- A branch that is taken. -/
theorem execBranch_taken {s : State} {imm : Word} (hrep : representable .B imm = true)
    (h : s.params.pcOverflow = .wrap ∨ (0 ≤ s.pc.toNat + imm.toInt ∧ s.pc.toNat + imm.toInt < 2 ^ 20)) :
    execBranch true imm s = .next (s.setPc (BitVec.ofInt 20 (s.pc.toNat + imm.toInt))) :=
  execBranch_next.2 ⟨hrep, _, branchTarget_eq hrep h, rfl⟩

/-- A branch that is not taken. -/
theorem execBranch_not_taken {s : State} {imm : Word} (hrep : representable .B imm = true)
    (h : s.params.pcOverflow = .wrap ∨ s.pc.toNat + 4 < 2 ^ 20) :
    execBranch false imm s = .next (s.setPc (BitVec.ofNat 20 ((s.pc.toNat + 4) % 2 ^ 20))) :=
  execBranch_next.2 ⟨hrep, _, seqPc_eq h, rfl⟩

/-- Settles O24: BEQ is taken exactly when the registers are equal. -/
theorem beqResult : Obligations.BeqResult := by
  refine fun a b imm s hrep => ⟨fun heq hpc => ?_, fun hne hpc => ?_⟩
  · rw [exec_beq, beq_iff_eq.2 heq, execBranch_taken hrep hpc]
  · rw [exec_beq, beq_eq_false_iff_ne.2 hne, execBranch_not_taken hrep hpc]

/-- Settles O25: BNE is taken exactly when the registers differ. -/
theorem bneResult : Obligations.BneResult := by
  refine fun a b imm s hrep => ⟨fun hne hpc => ?_, fun heq hpc => ?_⟩
  · rw [exec_bne, bne_iff_ne.2 hne, execBranch_taken hrep hpc]
  · rw [exec_bne, bne_eq_false_iff_eq.2 heq, execBranch_not_taken hrep hpc]

/-- Settles O17: LW reads the four bytes SW wrote. -/
theorem loadReadsBackStore : Obligations.LoadReadsBackStore := by
  intro s t u r base src d base' imm imm' hwf hd hstore hkept haddr hload
  obtain ⟨-, -, _, -, rfl⟩ := execSw_next.1 hstore
  obtain ⟨-, -, _, -, rfl⟩ := execLw_next.1 hload
  rw [State.setPc_readReg, State.readReg_writeReg_same u d _ hd, haddr, Memory.readWord_congr hkept]
  exact Memory.readWord_writeWord hwf _ _

/-- Settles O28: mv and neg are an ADD and a SUB with x0, nop an ADD that writes x0. -/
theorem pseudoInstructionsAct : Obligations.PseudoInstructionsAct := by
  intro s d r hpc
  have hseq : seqPc s = .ok (s.pc + 4) := seqPc_ok.2 ⟨hpc, rfl⟩
  have hzero : s.readReg 0 = 0#32 := State.readReg_zero s
  refine ⟨execAlu_next.2 ⟨_, hseq, ?mv⟩, execAlu_next.2 ⟨_, hseq, ?nop⟩, fun hmode => execAlu_next.2 ⟨_, hseq, ?neg⟩⟩
  case mv => rw [hzero, aluAdd_zero]
  case nop => exact congrArg (State.setPc · _) (State.writeReg_zero s _).symm
  case neg =>
    rw [hmode, hzero, aluSub_zero_left]
    rfl

end Sys2Proof.Machine
end

section
/-! Errors and refusals of each instruction (60_exceptions.md R181 to R188, 30_encoding.md R85). -/

namespace Sys2Proof.Machine

/-- Recording an error leaves registers, pc, memory and parameters. -/
theorem sameMachine_recordError (s : State) (e : MachineError) : SameMachine s (s.recordError e) :=
  ⟨rfl, rfl, rfl, rfl⟩

/-- The sequential pc past the space under PC_OVERFLOW = fault (R186). -/
theorem seqPc_overflow {s : State} (hmode : s.params.pcOverflow = .fault) (h : 2 ^ 20 ≤ s.pc.toNat + 4) :
    seqPc s = .error (.pcRangeFault (BitVec.ofNat 32 (s.pc.toNat + 4))) :=
  seqPc_error.2 ⟨hmode, h, congrArg MachineError.pcRangeFault (linkValue_eq_ofNat s).symm⟩

/-- A branch target outside the space under PC_OVERFLOW = fault (R186). -/
theorem branchTarget_overflow {s : State} {imm : Word} (hrep : representable .B imm = true)
    (hmode : s.params.pcOverflow = .fault) (h : s.pc.toNat + imm.toInt < 0 ∨ 2 ^ 20 ≤ s.pc.toNat + imm.toInt) :
    branchTarget s imm = .error (.pcRangeFault (BitVec.ofInt 32 (s.pc.toNat + imm.toInt))) := by
  have hout : ¬ (relativeTarget s imm).toNat < 1048576 := by
    rw [relativeTarget_lt_iff s hrep]
    omega
  exact narrowPc_error.2 ⟨hmode, Nat.not_lt.1 hout, congrArg MachineError.pcRangeFault (relativeTarget_eq_ofInt s imm).symm⟩

/-- Settles O29: by seqPc_overflow. -/
theorem aluPcRangeFault : Obligations.AluPcRangeFault := by
  intro d a b s hmode hpc
  have hseq := seqPc_overflow hmode hpc
  exact ⟨_, sameMachine_recordError s _, execAlu_fault.2 ⟨hseq, rfl⟩, execAlu_fault.2 ⟨hseq, rfl⟩⟩

/-- Settles O30: one failed check of LW and SW after the other, in their order. -/
theorem loadStoreErrorOrder : Obligations.LoadStoreErrorOrder := by
  rintro r base imm s _ rfl hrepI hrepS
  refine ⟨fun hout => ?bounds, fun hin hmode hmis => ?alignment, fun hin halign hmode hpc => ?pc⟩
  case bounds =>
    exact ⟨_, _, sameMachine_recordError s _, sameMachine_recordError s _,
      execLw_fault.2 ⟨hrepI, rfl, .inl (checkAccess_error.2 (.inl ⟨hout, rfl⟩))⟩,
      execSw_fault.2 ⟨hrepS, rfl, .inl (checkAccess_error.2 (.inl ⟨hout, rfl⟩))⟩⟩
  case alignment =>
    exact ⟨_, _, sameMachine_recordError s _, sameMachine_recordError s _,
      execLw_fault.2 ⟨hrepI, rfl, .inl (checkAccess_error.2 (.inr ⟨hin, hmode, hmis, rfl⟩))⟩,
      execSw_fault.2 ⟨hrepS, rfl, .inl (checkAccess_error.2 (.inr ⟨hin, hmode, hmis, rfl⟩))⟩⟩
  case pc =>
    have hseq := seqPc_overflow hmode hpc
    exact ⟨_, sameMachine_recordError s _,
      execLw_fault.2 ⟨hrepI, rfl, .inr ⟨checkAccess_ok.2 ⟨hin, halign⟩, hseq⟩⟩,
      execSw_fault.2 ⟨hrepS, rfl, .inr ⟨checkAccess_ok.2 ⟨hin, halign⟩, hseq⟩⟩⟩

/-- Settles O31: the error is raised on the state JALR reads its base from. -/
theorem jalrAddressRangeError : Obligations.JalrAddressRangeError := by
  intro d base imm s hrep
  rw [← linkValue_eq_ofNat]
  refine ⟨fun horder c hc hout => ?_, fun horder c hc hout => ?_⟩
  · have hstate := jalrReadState_linkFirst s d horder
    have hcand : c = jalrCandidate (jalrReadState s d) base imm := by rw [hc, hstate, jalrCandidate]
    refine ⟨_, execJalr_fault.2 ⟨hrep, hcand ▸ hout, congrArg _ hcand, rfl⟩, ?_⟩
    rw [hstate]
    exact sameMachine_recordError _ _
  · have hstate := jalrReadState_readFirst s d horder
    have hcand : c = jalrCandidate (jalrReadState s d) base imm := by rw [hc, hstate, jalrCandidate]
    refine ⟨_, execJalr_fault.2 ⟨hrep, hcand ▸ hout, congrArg _ hcand, rfl⟩, ?_⟩
    rw [hstate]
    exact sameMachine_recordError _ _

/-- Settles O32: by branchTarget_overflow where the branch is taken and seqPc_overflow where it is not. -/
theorem branchPcRangeFault : Obligations.BranchPcRangeFault := by
  intro a b imm s hrep hmode
  refine ⟨fun hout => ?taken, fun hpc => ?notTaken⟩
  case taken =>
    have hfault := execBranch_fault (taken := true).2 ⟨hrep, branchTarget_overflow hrep hmode hout, rfl⟩
    refine ⟨_, sameMachine_recordError s _, fun heq => Eq.trans ?_ hfault, fun hne => Eq.trans ?_ hfault⟩
    · rw [exec_beq, beq_iff_eq.2 heq]
    · rw [exec_bne, bne_iff_ne.2 hne]
  case notTaken =>
    have hfault := execBranch_fault (taken := false).2 ⟨hrep, seqPc_overflow hmode hpc, rfl⟩
    refine ⟨_, sameMachine_recordError s _, fun hne => Eq.trans ?_ hfault, fun heq => Eq.trans ?_ hfault⟩
    · rw [exec_beq, beq_eq_false_iff_ne.2 hne]
    · rw [exec_bne, bne_eq_false_iff_eq.2 heq]

/-! Refusals. -/

section
variable {d a b : RegIdx} {r imm : Word} {taken : Bool} {s : State} {q : Refusal}

theorem execAlu_ne_refused : execAlu d r s ≠ .refused q := by
  simp [execAlu, proceed_refused]

theorem execLw_refused :
    execLw d a imm s = .refused q ↔ representable .I imm = false ∧ q = .unrepresentableImmediate := by
  simp [execLw, withAccess, whenRepresentable_refused, proceed_refused]

theorem execSw_refused :
    execSw a b imm s = .refused q ↔ representable .S imm = false ∧ q = .unrepresentableImmediate := by
  simp [execSw, withAccess, whenRepresentable_refused, proceed_refused]

theorem execJal_refused :
    execJal d imm s = .refused q ↔ representable .J imm = false ∧ q = .unrepresentableImmediate := by
  simp [execJal, whenRepresentable_refused]

theorem execJalr_refused :
    execJalr d a imm s = .refused q ↔ representable .I imm = false ∧ q = .unrepresentableImmediate := by
  rw [execJalr, whenRepresentable_refused]
  dsimp only
  split <;> simp

theorem execBranch_refused :
    execBranch taken imm s = .refused q ↔ representable .B imm = false ∧ q = .unrepresentableImmediate := by
  simp [execBranch, whenRepresentable_refused, proceed_refused]

end

/-- exec refuses an instruction exactly where it is not well-formed (R85). -/
theorem exec_refused {i : Instr} {s : State} {q : Refusal} :
    exec i s = .refused q ↔ i.wf = false ∧ q = .unrepresentableImmediate := by
  cases i with
  | add d a b => simp [execAlu_ne_refused]
  | sub d a b => simp [execAlu_ne_refused]
  | lw d a imm => exact execLw_refused
  | sw a b imm => exact execSw_refused
  | jal d imm => exact execJal_refused
  | jalr d a imm => exact execJalr_refused
  | beq a b imm => exact execBranch_refused
  | bne a b imm => exact execBranch_refused

/-- Settles O33: by exec_refused. -/
theorem onlyIllFormedIsRefused : Obligations.OnlyIllFormedIsRefused := by
  refine fun i s => ⟨fun hill => exec_refused.2 ⟨hill, rfl⟩, fun hwf r hr => ?_⟩
  rw [(exec_refused.1 hr).1] at hwf
  cases hwf

/-! Which errors each instruction and each tick can raise. -/

/-- An access check fails on its bounds or its alignment (R184, R185). -/
theorem checkAccess_error_kind {s : State} {kind : AccessKind} {a : Word} {e : MachineError}
    (h : checkAccess s kind a = .error e) : e = .memoryRangeFault kind a ∨ e = .misalignedFault kind a := by
  obtain ⟨-, he⟩ | ⟨-, -, -, he⟩ := checkAccess_error.1 h
  · exact .inl he
  · exact .inr he

/-- A next pc fails with PcRangeFault alone (R186). -/
theorem narrowPc_error_kind {s : State} {target : Word} {e : MachineError} (h : narrowPc s target = .error e) :
    ∃ v, e = .pcRangeFault v :=
  ⟨target, (narrowPc_error.1 h).2.2⟩

/-- What LW and SW raise: a fault of their access, or of the sequential pc. -/
theorem access_error_kind {s : State} {kind : AccessKind} {a : Word} {e : MachineError}
    (h : checkAccess s kind a = .error e ∨ (checkAccess s kind a = .ok () ∧ seqPc s = .error e)) :
    e = .memoryRangeFault kind a ∨ e = .misalignedFault kind a ∨ ∃ v, e = .pcRangeFault v := by
  obtain haccess | ⟨-, hpc⟩ := h
  · exact (checkAccess_error_kind haccess).imp_right .inl
  · exact .inr (.inr (narrowPc_error_kind hpc))

/-- What BEQ and BNE raise. -/
theorem execBranch_error_kind {taken : Bool} {imm : Word} {s t : State} {e : MachineError}
    (h : execBranch taken imm s = .fault (.err e t)) : ∃ v, e = .pcRangeFault v := by
  obtain ⟨-, hpc, -⟩ := execBranch_fault.1 h
  split at hpc <;> exact narrowPc_error_kind hpc

/-- Settles O35: the error of each variant's failed check. -/
theorem errorKindsByInstruction : Obligations.ErrorKindsByInstruction := by
  intro i s t e h
  cases i with
  | add d a b => exact narrowPc_error_kind (execAlu_fault.1 h).1
  | sub d a b => exact narrowPc_error_kind (execAlu_fault.1 h).1
  | lw d a imm =>
    obtain ⟨-, -, haccess⟩ := execLw_fault.1 h
    exact access_error_kind haccess
  | sw a b imm =>
    obtain ⟨-, -, haccess⟩ := execSw_fault.1 h
    exact access_error_kind haccess
  | jal d imm => exact execJal_fault h
  | jalr d a imm =>
    obtain ⟨-, -, he, -⟩ := execJalr_fault.1 h
    exact ⟨_, he⟩
  | beq a b imm => exact execBranch_error_kind h
  | bne a b imm => exact execBranch_error_kind h

/-- Under MISALIGNED = bytewise an access check fails on its bounds alone. -/
theorem checkAccess_error_bytewise {s : State} {kind : AccessKind} {a : Word} {e : MachineError}
    (hmode : s.params.misaligned = .bytewise) (h : checkAccess s kind a = .error e) : e = .memoryRangeFault kind a := by
  obtain ⟨-, he⟩ | ⟨-, hfault, -⟩ := checkAccess_error.1 h
  · exact he
  · rw [hmode] at hfault
    cases hfault

/-- Settles O36: the fetch, the decode and exec each fail in one of the three ways, since no access is misaligned and no pc is
out of range under the default modes. -/
theorem defaultParametersRaiseThreeKinds : Obligations.DefaultParametersRaiseThreeKinds := by
  intro s t e hmis hpc h
  obtain ⟨hfetch, -⟩ | ⟨i, -, hexec⟩ := step_fault.1 h
  · obtain hword | ⟨w, -, he, -⟩ := fetchInstr_error.1 hfetch
    · exact .inr (.inr ⟨_, _, checkAccess_error_bytewise (s := s.begin) hmis (fetchWord_error.1 hword)⟩)
    · exact .inl ⟨w, he⟩
  · obtain ⟨-, ⟨kind, a, haccess⟩ | ⟨target, hnarrow⟩⟩ | ⟨d, base, imm, c, -, he, -⟩ := exec_fault_cases hexec
    · exact .inr (.inr ⟨kind, a, checkAccess_error_bytewise (s := s.begin) hmis haccess⟩)
    · have hfault : s.params.pcOverflow = .fault := (narrowPc_error.1 hnarrow).1
      rw [hpc] at hfault
      cases hfault
    · exact .inr (.inl ⟨c, he⟩)

end Sys2Proof.Machine
end

section
/-! The tick: what it fetches, and what an error leaves (40_cycle.md R111 to R113, 60_exceptions.md R187, R189). -/

namespace Sys2Proof.Machine

/-- The pc as an address of memory. -/
theorem toNat_setWidth_pc (pc : Addr) : (pc.setWidth 32).toNat = pc.toNat :=
  BitVec.toNat_setWidth_of_le (by decide)

/-- A failed check of the fetch ends the tick with its error. -/
theorem step_of_fetch_error {s : State} {e : MachineError} (h : checkAccess s .fetch (s.pc.setWidth 32) = .error e) :
    step s = .fault (.err e (s.begin.recordError e)) :=
  step_fault.2 (.inl ⟨fetchInstr_error.2 (.inl (fetchWord_error.2 h)), rfl⟩)

/-- Settles O34: the fetch fails its bounds, or else its alignment. -/
theorem fetchErrorOrder : Obligations.FetchErrorOrder := by
  intro s
  rw [← toNat_setWidth_pc]
  refine ⟨fun hout => ?_, fun hin hmode hmis => ?_⟩
  · exact ⟨_, step_of_fetch_error (checkAccess_error.2 (.inl ⟨hout, rfl⟩)), sameMachine_begin_recordError s _⟩
  · exact ⟨_, step_of_fetch_error (checkAccess_error.2 (.inr ⟨hin, hmode, hmis, rfl⟩)), sameMachine_begin_recordError s _⟩

/-- The instruction a tick fetches where the word at pc may be fetched (R112, R113). -/
theorem fetchInstr_of_decode {s : State} {i : Instr} (hin : s.pc.toNat + 3 < s.params.memSize)
    (halign : s.params.misaligned = .bytewise ∨ s.pc.toNat % 4 = 0)
    (h : decode (Memory.readWord s.mem s.pc.toNat) = .ok i) : fetchInstr s = .ok i := by
  rw [← toNat_setWidth_pc] at hin halign
  exact fetchInstr_ok.2 ⟨_, fetchWord_ok.2 ⟨checkAccess_ok.2 ⟨hin, halign⟩, rfl⟩, h⟩

/-- decodeBytes decodes the word its four bytes make (20_memory.md R43). -/
theorem decode_of_decodeBytes {b0 b1 b2 b3 : Byte} {i : Instr} {rest : List Byte}
    (h : decodeBytes [b0, b1, b2, b3] = .ok (i, rest)) : decode (wordOfBytes b0 b1 b2 b3) = .ok i := by
  unfold decodeBytes at h
  cases hw : decode (wordOfBytes b0 b1 b2 b3) with
  | ok j =>
    simp only [hw, Except.ok.injEq, Prod.mk.injEq] at h
    rw [h.1]
  | error e => simp [hw] at h

/-- Settles O43: by fetchInstr_of_decode. -/
theorem stepRunsDecodedInstruction : Obligations.StepRunsDecodedInstruction :=
  fun _ _ hin halign h => step_of_fetchInstr (fetchInstr_of_decode hin halign (decode_of_decodeBytes h))

/-- A table word decodes as its low 32 bits do. -/
theorem decode_of_decodeTableWord {w : Nat} {i : Instr} (h : decodeTableWord 32 w = some i) :
    decode (BitVec.ofNat 32 (w % 2 ^ 32)) = .ok i := by
  unfold decodeTableWord at h
  split at h
  · rename_i j rest hbytes
    have hdecode := decode_of_decodeBytes hbytes
    rw [wordOfBytes_byteOfWord] at hdecode
    rw [hdecode, Option.some.inj h]
  · cases h

/-- Settles O44: the placed word reads back at pc. -/
theorem placedWordRuns : Obligations.PlacedWordRuns := by
  intro s w i hwf hin halign h
  refine step_of_fetchInstr (fetchInstr_of_decode hin halign ?_)
  exact (congrArg decode (Memory.readWord_writeWord hwf _ _)).trans (decode_of_decodeTableWord h)

/-- Settles O45: a fetched instruction is well-formed, and exec refuses none such. -/
theorem stepNeverRefuses : Obligations.StepNeverRefuses := by
  intro s r h
  cases hfetch : fetchInstr s with
  | ok i =>
    rw [step_of_fetchInstr hfetch] at h
    have hill := (exec_refused.1 h).1
    rw [wf_of_fetchInstr hfetch] at hill
    cases hill
  | error e =>
    rw [step, fetchInstr_begin, hfetch] at h
    exact raise_ne_refused _ _ _ h

/-- Settles O50: SW's checks are those of the later fetch, and the stored word reads back. -/
theorem storeSeenByLaterFetch : Obligations.StoreSeenByLaterFetch := by
  intro s t u base src imm i hwf hstore hmem hparams hpc hdecode
  obtain ⟨-, haccess, _, -, rfl⟩ := execSw_next.1 hstore
  obtain ⟨hin, halign⟩ := checkAccess_ok.1 haccess
  have hparams : u.params = s.params := hparams
  rw [← hpc, ← hparams] at hin halign
  refine step_of_fetchInstr (fetchInstr_of_decode hin halign ?_)
  rw [hmem, hpc]
  exact (congrArg decode (Memory.readWord_writeWord hwf _ _)).trans hdecode

/-! The state after an error. -/

/-- Beginning a tick and writing a register do not depend on their order. -/
theorem State.writeReg_begin (s : State) (i : RegIdx) (v : Word) : s.begin.writeReg i v = (s.writeReg i v).begin := by
  unfold State.writeReg
  split <;> rfl

/-- Settles O37: an error leaves the state before it or, of JALR, the state JALR reads its base from. -/
theorem errorsArePrecise : Obligations.ErrorsArePrecise := by
  intro s t e h
  rw [← linkValue_eq_ofNat]
  obtain ⟨-, rfl⟩ | ⟨i, hfetch, hexec⟩ := step_fault.1 h
  · exact .inl (sameMachine_begin_recordError s e)
  · obtain ⟨rfl, -⟩ | ⟨d, base, imm, c, rfl, rfl, rfl⟩ := exec_fault_cases hexec
    · exact .inl (sameMachine_begin_recordError s e)
    · obtain ⟨horder, hstate⟩ | ⟨-, hstate⟩ := jalrReadState_cases s.begin d
      · refine .inr ⟨d, base, imm, c, horder, hfetch, rfl, ?_⟩
        rw [hstate, State.writeReg_begin]
        exact sameMachine_begin_recordError _ _
      · rw [hstate]
        exact .inl (sameMachine_begin_recordError s _)

/-! A tick after an error (R189, U13). -/

/-- The later of two writes of a register stands. -/
theorem State.writeReg_writeReg_same (s : State) (i : RegIdx) (v v' : Word) :
    (s.writeReg i v).writeReg i v' = s.writeReg i v' := by
  unfold State.writeReg
  split <;> simp

/-- Recording an error and writing a register do not depend on their order. -/
theorem State.writeReg_recordError (s : State) (e : MachineError) (i : RegIdx) (v : Word) :
    (s.recordError e).writeReg i v = (s.writeReg i v).recordError e := by
  unfold State.writeReg
  split <;> rfl

/-- A second link write after an error of JALR writes the link that stands there. -/
theorem jalrReadState_recordError (s : State) (d : RegIdx) (e : MachineError) :
    jalrReadState ((jalrReadState s d).recordError e) d = (jalrReadState s d).recordError e := by
  obtain ⟨horder, hstate⟩ | ⟨horder, hstate⟩ := jalrReadState_cases s d
  · have hlink : linkValue ((s.writeReg d (linkValue s)).recordError e) = linkValue s := by simp [linkValue]
    rw [hstate, jalrReadState_linkFirst _ d (by simpa using horder), hlink, State.writeReg_recordError,
      State.writeReg_writeReg_same]
  · rw [hstate, jalrReadState_readFirst _ d (by simpa using horder)]

/-- exec raises the same error again on the state its error left, and leaves it: the failed check reads nothing the record holds. -/
theorem exec_fault_again {i : Instr} {s t : State} {e : MachineError} (h : exec i s = .fault (.err e t)) :
    exec i t = .fault (.err e t) := by
  cases i with
  | add d a b =>
    obtain ⟨hpc, rfl⟩ := execAlu_fault.1 h
    exact execAlu_fault.2 ⟨hpc, rfl⟩
  | sub d a b =>
    obtain ⟨hpc, rfl⟩ := execAlu_fault.1 h
    exact execAlu_fault.2 ⟨hpc, rfl⟩
  | lw d a imm =>
    obtain ⟨hrep, rfl, haccess⟩ := execLw_fault.1 h
    exact execLw_fault.2 ⟨hrep, rfl, haccess⟩
  | sw a b imm =>
    obtain ⟨hrep, rfl, haccess⟩ := execSw_fault.1 h
    exact execSw_fault.2 ⟨hrep, rfl, haccess⟩
  | jal d imm => exact absurd h execJal_fault
  | jalr d a imm =>
    obtain ⟨hrep, hout, he, rfl⟩ := execJalr_fault.1 h
    have hstate := jalrReadState_recordError s d e
    refine execJalr_fault.2 ⟨hrep, ?_, ?_, ?_⟩
    · rw [hstate]
      exact hout
    · rw [hstate]
      exact he
    · rw [hstate]
      rfl
  | beq a b imm =>
    obtain ⟨hrep, hpc, rfl⟩ := execBranch_fault.1 h
    exact execBranch_fault.2 ⟨hrep, hpc, rfl⟩
  | bne a b imm =>
    obtain ⟨hrep, hpc, rfl⟩ := execBranch_fault.1 h
    exact execBranch_fault.2 ⟨hrep, hpc, rfl⟩

/-- The instruction a tick fetches depends on pc, memory and the parameters alone. -/
theorem fetchInstr_congr {s t : State} (hpc : t.pc = s.pc) (hmem : t.mem = s.mem) (hparams : t.params = s.params) :
    fetchInstr t = fetchInstr s := by
  unfold fetchInstr fetchWord checkAccess
  rw [hpc, hmem, hparams]

/-- Beginning a tick again changes nothing. -/
theorem State.begin_of_started {s : State} (h : s.started = true) : s.begin = s := by
  unfold State.begin
  rw [← h]

/-- Settles O38: the tick fetches the same bytes, and then fails as before. -/
theorem errorRepeatsOnNextTick : Obligations.ErrorRepeatsOnNextTick := by
  intro s t e h
  obtain ⟨hfetch, rfl⟩ | ⟨i, hfetch, hexec⟩ := step_fault.1 h
  · exact step_fault.2 (.inl ⟨hfetch, rfl⟩)
  · obtain ⟨hpc, hmem, hparams, -, hstarted⟩ := exec_fault_keeps hexec
    rw [step_of_fetchInstr ((fetchInstr_congr hpc hmem hparams).trans hfetch), State.begin_of_started hstarted]
    exact exec_fault_again hexec

/-- Settles O39: a tick begins, and exec then keeps what it does not record. -/
theorem bookkeepingOfTick : Obligations.BookkeepingOfTick := by
  refine fun s t => ⟨fun h => ?_, fun e h => ?_⟩
  · obtain ⟨i, -, hexec⟩ := step_next.1 h
    obtain ⟨hparams, hrecord, hstarted⟩ := exec_next_keeps hexec
    exact ⟨hrecord, hstarted, hparams⟩
  · obtain ⟨-, rfl⟩ | ⟨i, -, hexec⟩ := step_fault.1 h
    · exact ⟨rfl, rfl, rfl⟩
    · obtain ⟨-, -, hparams, hrecord, hstarted⟩ := exec_fault_keeps hexec
      exact ⟨hrecord, hstarted, hparams⟩

end Sys2Proof.Machine
end

section
/-! Frames: what each instruction leaves unchanged (10_state.md R25, R29, R31). -/

namespace Sys2Proof.Machine

/-- An instruction with an rd changes rd and pc alone. -/
theorem exec_next_of_dest {i : Instr} {s t : State} {d : RegIdx} (hdest : i.dest? = some d) (h : exec i s = .next t) :
    ∃ r npc, t = (s.writeReg d r).setPc npc := by
  obtain ⟨d', r, npc, hdest', ht⟩ | ⟨base, src, imm, npc, rfl, -⟩ | ⟨npc, hnone, -⟩ := exec_next_cases h
  · obtain rfl : d = d' := Option.some.inj (hdest.symm.trans hdest')
    exact ⟨r, npc, ht⟩
  · cases hdest
  · rw [hdest] at hnone
    cases hnone

/-- Settles O40: each of the five variants has d as its rd. -/
theorem registerWritingFrame : Obligations.RegisterWritingFrame := by
  intro s t d a b imm h
  have hupdate : ∃ r npc, t = (s.writeReg d r).setPc npc := by
    obtain h | h | h | h | h := h <;> exact exec_next_of_dest rfl h
  obtain ⟨r, npc, rfl⟩ := hupdate
  refine ⟨fun j hj => State.readReg_writeReg_ne s d j r hj, rfl, fun n => ?_, ?_, ?_, ?_⟩ <;> simp

/-- Settles O41: SW's state is the one before with four bytes and pc written. -/
theorem storeFrame : Obligations.StoreFrame := by
  intro s t base src imm hwf h
  obtain ⟨-, -, npc, -, rfl⟩ := execSw_next.1 h
  exact ⟨fun _ => rfl, fun n hn => Memory.read_writeWord_outside hwf _ hn, rfl, rfl, rfl⟩

/-- Settles O42: a branch's state is the one before with pc written. -/
theorem branchFrame : Obligations.BranchFrame := by
  intro s t a b imm h
  have hupdate : ∃ npc, t = s.setPc npc := by
    obtain h | h := h <;> obtain ⟨-, npc, -, ht⟩ := execBranch_next.1 h <;> exact ⟨npc, ht⟩
  obtain ⟨npc, rfl⟩ := hupdate
  exact ⟨fun _ => rfl, fun _ => rfl, rfl, rfl, rfl⟩

/-- Settles O52: the other next states of exec keep memory, and SW keeps the bytes it does not cover. -/
theorem onlySwChangesMemory : Obligations.OnlySwChangesMemory := by
  intro s t n hwf h hchanged
  obtain ⟨i, hfetch, hexec⟩ := step_next.1 h
  obtain ⟨d, r, npc, -, rfl⟩ | ⟨base, src, imm, npc, rfl, -, rfl⟩ | ⟨npc, -, rfl⟩ := exec_next_cases hexec
  · exact absurd (by simp) hchanged
  · refine ⟨base, src, imm, hfetch, ?_⟩
    by_contra hout
    exact hchanged (Memory.read_writeWord_outside hwf _ hout)
  · exact absurd rfl hchanged

end Sys2Proof.Machine
end

section
/-! A register an instruction does not read has no influence on its outcome (10_state.md R25). -/

namespace Sys2Proof.Machine

/-- Two outcomes of an instruction with rd d, the second from a state in which register k held v: the same, but for the value of k
where k is not d. -/
def SameButUnread (d : Option RegIdx) (k : RegIdx) (v : Word) (o o' : Host.Outcome State Fault Refusal) : Prop :=
  (∀ t, o = .next t → o' = .next (if d = some k then t else t.writeReg k v)) ∧
  (∀ e t, o = .fault (.err e t) → ∃ u, o' = .fault (.err e u) ∧ (u = t.writeReg k v ∨ (d = some k ∧ u = t))) ∧
  (∀ r, o = .refused r → o' = .refused r)

/-! A write of k before an instruction's own updates. -/

section
variable (s : State) (k : RegIdx) (v : Word)

theorem seqPc_writeReg : seqPc (s.writeReg k v) = seqPc s := by
  simp [seqPc, narrowPc]

theorem branchTarget_writeReg (imm : Word) : branchTarget (s.writeReg k v) imm = branchTarget s imm := by
  simp [branchTarget, relativeTarget, narrowPc]

theorem jalTarget_writeReg (imm : Word) : jalTarget (s.writeReg k v) imm = jalTarget s imm := by
  simp [jalTarget, relativeTarget]

theorem linkValue_writeReg : linkValue (s.writeReg k v) = linkValue s := by
  simp [linkValue]

theorem checkAccess_writeReg (kind : AccessKind) (a : Word) : checkAccess (s.writeReg k v) kind a = checkAccess s kind a := by
  simp [checkAccess]

theorem effectiveAddress_writeReg {base : RegIdx} (h : base ≠ k) (imm : Word) :
    effectiveAddress (s.writeReg k v) base imm = effectiveAddress s base imm := by
  rw [effectiveAddress, effectiveAddress, State.readReg_writeReg_ne s k base v h]

/-- Memory and a register are written in either order. -/
theorem State.writeReg_setMem (m : Memory) : (s.writeReg k v).setMem m = (s.setMem m).writeReg k v := by
  unfold State.writeReg
  split <;> rfl

/-- The pc and a register are written in either order. -/
theorem State.writeReg_setPc (npc : Addr) : (s.writeReg k v).setPc npc = (s.setPc npc).writeReg k v := by
  unfold State.writeReg
  split <;> rfl

/-- Two registers are written in either order. -/
theorem State.writeReg_comm {j : RegIdx} (h : k ≠ j) (w : Word) :
    (s.writeReg k v).writeReg j w = (s.writeReg j w).writeReg k v := by
  have hslots : k.toNat ≠ j.toNat := fun he => h (regIdx_ext he)
  unfold State.writeReg
  split_ifs
  · rfl
  · rfl
  · rfl
  · simp [Vector.set_comm _ _ hslots]

/-- A write of k is lost where rd is k, and otherwise stands beside rd's. -/
theorem State.writeReg_dest (d : RegIdx) (r : Word) :
    (s.writeReg k v).writeReg d r = if some d = some k then s.writeReg d r else (s.writeReg d r).writeReg k v := by
  split
  case isTrue h => rw [Option.some.inj h, State.writeReg_writeReg_same]
  case isFalse h => exact State.writeReg_comm s k v (fun hk => h (congrArg some hk.symm)) r

end

section
variable {d : Option RegIdx} {k : RegIdx} {v : Word} {s : State} {o o' : Host.Outcome State Fault Refusal}

/-! The relation at each of the three outcomes. -/

theorem SameButUnread.of_next {t : State} (h : o' = .next (if d = some k then t else t.writeReg k v)) :
    SameButUnread d k v (.next t) o' := by
  refine ⟨fun u hu => ?_, fun e u hu => ?_, fun r hr => ?_⟩
  · cases hu
    exact h
  · cases hu
  · cases hr

theorem SameButUnread.of_fault {e : MachineError} {t u : State} (h : u = t.writeReg k v ∨ (d = some k ∧ u = t)) :
    SameButUnread d k v (.fault (.err e t)) (.fault (.err e u)) := by
  refine ⟨fun t' ht => ?_, fun e' t' ht => ?_, fun r hr => ?_⟩
  · cases ht
  · cases ht
    exact ⟨u, rfl, h⟩
  · cases hr

theorem SameButUnread.of_refused (r : Refusal) : SameButUnread d k v (.refused r) (.refused r) := by
  refine ⟨fun t ht => ?_, fun e t ht => ?_, fun _ hr => hr⟩
  · cases ht
  · cases ht

/-! The relation along the shared operations. -/

theorem SameButUnread.raise (e : MachineError) : SameButUnread d k v (raise e s) (raise e (s.writeReg k v)) :=
  .of_fault (.inl (State.writeReg_recordError s e k v).symm)

/-- JALR's error after the link write: the link stands, whatever k held. -/
theorem SameButUnread.raise_same (hk : d = some k) (e : MachineError) :
    SameButUnread d k v (Machine.raise e s) (Machine.raise e s) :=
  .of_fault (.inr ⟨hk, rfl⟩)

theorem SameButUnread.proceed {α : Type} (r : Except MachineError α) {c c' : α → Host.Outcome State Fault Refusal}
    (h : ∀ a, SameButUnread d k v (c a) (c' a)) :
    SameButUnread d k v (proceed r s c) (proceed r (s.writeReg k v) c') := by
  cases r with
  | ok a => exact h a
  | error e => exact .raise e

theorem SameButUnread.whenRepresentable {kind : ImmKind} {imm : Word} (h : SameButUnread d k v o o') :
    SameButUnread d k v (whenRepresentable kind imm o) (whenRepresentable kind imm o') := by
  unfold Machine.whenRepresentable
  split
  · exact h
  · exact .of_refused _

/-- A next state of an instruction without an rd. -/
theorem SameButUnread.next {t t' : State} (h : t' = t.writeReg k v) : SameButUnread none k v (.next t) (.next t') :=
  .of_next (congrArg Host.Outcome.next h)

/-- A next state of an instruction with an rd. -/
theorem SameButUnread.next_dest (d : RegIdx) (r : Word) (npc : Addr) :
    SameButUnread (some d) k v (.next ((s.writeReg d r).setPc npc)) (.next (((s.writeReg k v).writeReg d r).setPc npc)) := by
  apply of_next
  rw [State.writeReg_dest, ← State.writeReg_setPc, apply_ite (State.setPc · npc)]

/-! Each meaning, where k is none of the registers it reads. -/

theorem execAlu_sameButUnread (d : RegIdx) (r : Word) :
    SameButUnread (some d) k v (execAlu d r s) (execAlu d r (s.writeReg k v)) := by
  rw [execAlu, execAlu, seqPc_writeReg]
  exact .proceed _ fun npc => .next_dest d r npc

theorem execLw_sameButUnread {base : RegIdx} (h : base ≠ k) (d : RegIdx) (imm : Word) :
    SameButUnread (some d) k v (execLw d base imm s) (execLw d base imm (s.writeReg k v)) := by
  rw [execLw, execLw, withAccess, withAccess, effectiveAddress_writeReg s k v h, checkAccess_writeReg, seqPc_writeReg,
    State.writeReg_mem]
  exact .whenRepresentable (.proceed _ fun _ => .proceed _ fun npc => .next_dest d _ npc)

theorem execSw_sameButUnread {base src : RegIdx} (hbase : base ≠ k) (hsrc : src ≠ k) (imm : Word) :
    SameButUnread none k v (execSw base src imm s) (execSw base src imm (s.writeReg k v)) := by
  rw [execSw, execSw, withAccess, withAccess, effectiveAddress_writeReg s k v hbase, checkAccess_writeReg, seqPc_writeReg,
    State.writeReg_mem, State.readReg_writeReg_ne s k src v hsrc]
  refine .whenRepresentable (.proceed _ fun _ => .proceed _ fun npc => .next ?_)
  rw [State.writeReg_setMem, State.writeReg_setPc]

theorem execJal_sameButUnread (d : RegIdx) (imm : Word) :
    SameButUnread (some d) k v (execJal d imm s) (execJal d imm (s.writeReg k v)) := by
  rw [execJal, execJal, linkValue_writeReg, jalTarget_writeReg]
  exact .whenRepresentable (.next_dest d _ _)

/-- What JALR reads as its base does not depend on another register. -/
theorem jalrCandidate_writeReg {base : RegIdx} (h : base ≠ k) (d : RegIdx) (imm : Word) :
    jalrCandidate (jalrReadState (s.writeReg k v) d) base imm = jalrCandidate (jalrReadState s d) base imm := by
  rw [jalrCandidate, jalrCandidate, jalrReadState_readReg, jalrReadState_readReg, State.writeReg_params, linkValue_writeReg,
    State.readReg_writeReg_ne s k base v h]

/-- JALR's error: the link may have been written over k (R163, R183). -/
theorem jalrReadState_sameButUnread (d : RegIdx) (e : MachineError) :
    SameButUnread (some d) k v (raise e (jalrReadState s d)) (raise e (jalrReadState (s.writeReg k v) d)) := by
  cases horder : s.params.jalrOrder with
  | linkFirst =>
    rw [jalrReadState_linkFirst s d horder, jalrReadState_linkFirst _ d (by rwa [State.writeReg_params]), linkValue_writeReg,
      State.writeReg_dest]
    split
    case isTrue hk => exact .raise_same hk e
    case isFalse => exact .raise e
  | readFirst =>
    rw [jalrReadState_readFirst s d horder, jalrReadState_readFirst _ d (by rwa [State.writeReg_params])]
    exact .raise e

theorem execJalr_sameButUnread {base : RegIdx} (h : base ≠ k) (d : RegIdx) (imm : Word) :
    SameButUnread (some d) k v (execJalr d base imm s) (execJalr d base imm (s.writeReg k v)) := by
  rw [execJalr, execJalr]
  refine .whenRepresentable ?_
  dsimp only
  rw [jalrCandidate_writeReg h, linkValue_writeReg]
  split
  · exact jalrReadState_sameButUnread d _
  · exact .next_dest d _ _

theorem execBranch_sameButUnread (taken : Bool) (imm : Word) :
    SameButUnread none k v (execBranch taken imm s) (execBranch taken imm (s.writeReg k v)) := by
  rw [execBranch, execBranch, branchTarget_writeReg, seqPc_writeReg]
  exact .whenRepresentable (.proceed _ fun npc => .next (State.writeReg_setPc s k v npc))

end

/-- A register an instruction does not read has no influence on its outcome, variant by variant. -/
theorem exec_sameButUnread {i : Instr} {k : RegIdx} (h : k ∉ i.sources) (s : State) (v : Word) :
    SameButUnread i.dest? k v (exec i s) (exec i (s.writeReg k v)) := by
  have hread : ∀ j ∈ i.sources, (s.writeReg k v).readReg j = s.readReg j :=
    fun j hj => State.readReg_writeReg_ne s k j v fun hjk => h (hjk ▸ hj)
  cases i with
  | add d a b =>
    rw [exec_add, exec_add, State.writeReg_params, hread a (by simp [Instr.sources]), hread b (by simp [Instr.sources])]
    exact execAlu_sameButUnread d _
  | sub d a b =>
    rw [exec_sub, exec_sub, State.writeReg_params, hread a (by simp [Instr.sources]), hread b (by simp [Instr.sources])]
    exact execAlu_sameButUnread d _
  | lw d a imm => exact execLw_sameButUnread (fun ha => h (by simp [Instr.sources, ha])) d imm
  | sw a b imm =>
    exact execSw_sameButUnread (fun ha => h (by simp [Instr.sources, ha])) (fun hb => h (by simp [Instr.sources, hb])) imm
  | jal d imm => exact execJal_sameButUnread d imm
  | jalr d a imm => exact execJalr_sameButUnread (fun ha => h (by simp [Instr.sources, ha])) d imm
  | beq a b imm =>
    rw [exec_beq, exec_beq, hread a (by simp [Instr.sources]), hread b (by simp [Instr.sources])]
    exact execBranch_sameButUnread _ imm
  | bne a b imm =>
    rw [exec_bne, exec_bne, hread a (by simp [Instr.sources]), hread b (by simp [Instr.sources])]
    exact execBranch_sameButUnread _ imm

/-- Settles O51: by exec_sameButUnread. -/
theorem unreadRegistersDoNotMatter : Obligations.UnreadRegistersDoNotMatter :=
  fun _ s _ v h => exec_sameButUnread h s v

end Sys2Proof.Machine
end

section
/-! Loading memory, and the states a host can bring about (40_cycle.md R123, R124; 70_reset_and_hazards.md R200). -/

namespace Sys2Proof.Machine

/-- Settles O14: construction field by field. -/
theorem launchLeaves : Obligations.LaunchLeaves :=
  ⟨fun _ _ => ⟨rfl, rfl, rfl, rfl, rfl⟩, rfl, rfl⟩

/-- Every byte of a loaded image stands at its place, and 0 follows it (R124). -/
theorem Memory.read_ofBytes (image : List Byte) (a k : Nat) :
    Memory.read (Memory.ofBytes a image) (a + k) = image.getD k 0 := by
  induction image generalizing a k with
  | nil => rfl
  | cons b rest ih =>
    have hshift (j : Nat) : Memory.read (Memory.ofBytes (a + 1) rest) (a + (j + 1)) = (b :: rest).getD (j + 1) 0 := by
      rw [List.getD_cons_succ, ← ih (a + 1) j, Nat.add_assoc, Nat.add_comm 1 j]
    have hbelow : Memory.read (Memory.ofBytes (a + 1) rest) a = 0#8 :=
      Memory.read_of_lt _ a fun c hc => (Memory.mem_ofBytes hc).1
    unfold Memory.ofBytes
    split
    case isTrue hb =>
      cases k with
      | zero =>
        rw [List.getD_cons_zero, hb]
        exact hbelow
      | succ j => exact hshift j
    case isFalse =>
      cases k with
      | zero => exact Memory.read_cons_self (a, b) _
      | succ j =>
        rw [Memory.read_cons_ne (a, b) _ (by simp)]
        exact hshift j

/-- load_memory answers before the first tick with an image that fits (R124). -/
theorem loadMemory_next {image : List Byte} {s t : State} :
    loadMemory image s = .next t ↔
      s.started = false ∧ image.length ≤ s.params.memSize ∧ t = s.setMem (Memory.ofBytes 0 image) := by
  unfold loadMemory
  split
  case isTrue hstarted => simp [hstarted]
  case isFalse hstarted =>
    rw [Bool.not_eq_true] at hstarted
    split
    case isTrue hlong => simp [Nat.not_le.2 hlong]
    case isFalse hfits => simp [hstarted, Nat.not_lt.1 hfits, eq_comm]

/-- Settles O56: the two refusals, and the image read back from address 0. -/
theorem loadMemoryReplaces : Obligations.LoadMemoryReplaces := by
  refine fun image s => ⟨fun hstarted => ?_, fun hstarted hlong => ?_, fun hstarted hfits => ?_⟩
  · simp [loadMemory, hstarted]
  · simp [loadMemory, hstarted, hlong]
  · refine ⟨_, loadMemory_next.2 ⟨hstarted, hfits, rfl⟩, rfl, Memory.wf_ofBytes 0 image, fun a => ?_⟩
    simpa using Memory.read_ofBytes image 0 a

/-- An image that fits is a legal memory. -/
theorem State.Inv.loadMemory {s t : State} {image : List Byte} (h : s.Inv) (ht : loadMemory image s = .next t) : t.Inv := by
  obtain ⟨-, hfits, rfl⟩ := loadMemory_next.1 ht
  refine h.setMem (Memory.wf_ofBytes 0 image) fun c hc => ?_
  have hlt := (Memory.mem_ofBytes hc).2.1
  omega

/-- Settles O48: by induction over what the host does; a tick ends the time before the first. -/
theorem hostReachesLegalStates : Obligations.HostReachesLegalStates := by
  intro l s hwf hreach
  induction hreach with
  | constructed => exact ⟨inv_launch hwf, rfl, fun _ => ⟨rfl, rfl, rfl⟩⟩
  | loaded _ hload ih =>
    obtain ⟨hinv, hparams, hfresh⟩ := ih
    have hinv' := hinv.loadMemory hload
    obtain ⟨hstarted, -, rfl⟩ := loadMemory_next.1 hload
    exact ⟨hinv', hparams, fun _ => hfresh hstarted⟩
  | ticked _ htick ih =>
    obtain ⟨hinv, hparams, -⟩ := ih
    obtain ⟨-, hstarted, hkept⟩ := (bookkeepingOfTick _ _).1 htick
    exact ⟨hinv.step_next htick, hkept.trans hparams, fun hfalse => absurd (hstarted.symm.trans hfalse) (by decide)⟩
  | stopped _ htick ih =>
    obtain ⟨hinv, hparams, -⟩ := ih
    obtain ⟨-, hstarted, hkept⟩ := (bookkeepingOfTick _ _).2 _ htick
    exact ⟨hinv.step_fault htick, hkept.trans hparams, fun hfalse => absurd (hstarted.symm.trans hfalse) (by decide)⟩

end Sys2Proof.Machine
end

section
/-! Runs under fuel (40_cycle.md R120, R121, R126). -/

namespace Sys2Proof.Machine

section
variable {n : Nat} {stop : Addr → Bool} {s t : State} {e : MachineError}

/-- run ends Ok with its first tick, or goes on where that tick does not stop it. -/
theorem run_ok_succ :
    run (n + 1) stop s = .ok t ↔
      (step s = .next t ∧ stop t.pc = true) ∨ ∃ u, step s = .next u ∧ stop u.pc = false ∧ run n stop u = .ok t := by
  rw [run]
  cases hstep : step s with
  | next u =>
    dsimp only
    split
    case isTrue hstop =>
      constructor
      · rintro ⟨⟩
        exact .inl ⟨rfl, hstop⟩
      · rintro (⟨⟨⟩, -⟩ | ⟨_, ⟨⟩, hgo, -⟩)
        · rfl
        · exact absurd (hstop.symm.trans hgo) (by decide)
    case isFalse hgo =>
      constructor
      · exact fun h => .inr ⟨u, rfl, Bool.eq_false_iff.2 hgo, h⟩
      · rintro (⟨⟨⟩, hstop⟩ | ⟨_, ⟨⟩, -, h⟩)
        · exact absurd hstop hgo
        · exact h
  | fault f =>
    obtain ⟨e, u⟩ := f
    simp
  | refused r => simp

/-- run ends with the error of its first tick, or goes on where that tick does not stop it. -/
theorem run_err_succ :
    run (n + 1) stop s = .err e t ↔
      step s = .fault (.err e t) ∨ ∃ u, step s = .next u ∧ stop u.pc = false ∧ run n stop u = .err e t := by
  rw [run]
  cases hstep : step s with
  | next u => cases hstop : stop u.pc <;> simp [hstop]
  | fault f =>
    obtain ⟨e', u⟩ := f
    simp
  | refused r => simp

/-- run is never refused, since no tick is. -/
theorem run_ne_refused (r : Refusal) : run n stop s ≠ .refused r := by
  induction n generalizing s with
  | zero => simp [run]
  | succ n ih =>
    rw [run]
    cases hstep : step s with
    | next u => cases hstop : stop u.pc <;> simp [hstop, ih]
    | fault f =>
      obtain ⟨e, t⟩ := f
      simp
    | refused q => exact absurd hstep (stepNeverRefuses s q)

end

/-! The first tick of a row of ticks. -/

/-- The first k ticks all succeed, and the predicate holds after none of them. -/
def PassesOver (stop : Addr → Bool) (k : Nat) (s : State) : Prop :=
  ∀ j, j < k → ∃ u, ticks (j + 1) s = .next u ∧ stop u.pc = false

/-- Fewer than n ticks pass the predicate over before one whose outcome is in Q. -/
def EndsWithin (Q : Host.Outcome State Fault Refusal → Prop) (stop : Addr → Bool) (n : Nat) (s : State) : Prop :=
  ∃ k, k < n ∧ Q (ticks (k + 1) s) ∧ PassesOver stop k s

section
variable {Q : Host.Outcome State Fault Refusal → Prop} {stop : Addr → Bool} {n k : Nat} {s u : State}

theorem ticks_succ_of_next (h : step s = .next u) : ticks (k + 1) s = ticks k u := by
  rw [ticks, tick, h]

theorem ticks_one (s : State) : ticks 1 s = step s := by
  rw [ticks, tick]
  cases step s <;> rfl

theorem passesOver_succ :
    PassesOver stop (k + 1) s ↔ ∃ u, step s = .next u ∧ stop u.pc = false ∧ PassesOver stop k u := by
  constructor
  · intro h
    obtain ⟨u, hu, hstop⟩ := h 0 (by omega)
    rw [ticks_one] at hu
    refine ⟨u, hu, hstop, fun j hj => ?_⟩
    rw [← ticks_succ_of_next hu]
    exact h (j + 1) (by omega)
  · rintro ⟨u, hu, hstop, h⟩ j hj
    cases j with
    | zero => exact ⟨u, (ticks_one s).trans hu, hstop⟩
    | succ j =>
      rw [ticks_succ_of_next hu]
      exact h j (by omega)

theorem endsWithin_zero : ¬ EndsWithin Q stop 0 s := by
  rintro ⟨k, hk, -⟩
  omega

/-- The end comes with the first tick, or after it. -/
theorem endsWithin_succ :
    EndsWithin Q stop (n + 1) s ↔
      Q (step s) ∨ ∃ u, step s = .next u ∧ stop u.pc = false ∧ EndsWithin Q stop n u := by
  constructor
  · rintro ⟨k, hk, hQ, hpass⟩
    cases k with
    | zero => exact .inl (ticks_one s ▸ hQ)
    | succ k =>
      obtain ⟨u, hu, hstop, hpass⟩ := passesOver_succ.1 hpass
      exact .inr ⟨u, hu, hstop, k, by omega, ticks_succ_of_next hu ▸ hQ, hpass⟩
  · rintro (hQ | ⟨u, hu, hstop, k, hk, hQ, hpass⟩)
    · exact ⟨0, by omega, (ticks_one s).symm ▸ hQ, nofun⟩
    · exact ⟨k + 1, by omega, ticks_succ_of_next hu ▸ hQ, passesOver_succ.2 ⟨u, hu, hstop, hpass⟩⟩

end

section
variable {n : Nat} {stop : Addr → Bool} {s t : State} {e : MachineError}

theorem run_ok_iff : run n stop s = .ok t ↔ EndsWithin (fun o => o = .next t ∧ stop t.pc = true) stop n s := by
  induction n generalizing s with
  | zero => simp [run, endsWithin_zero]
  | succ n ih => simp only [run_ok_succ, endsWithin_succ, ih]

theorem run_err_iff : run n stop s = .err e t ↔ EndsWithin (fun o => o = .fault (.err e t)) stop n s := by
  induction n generalizing s with
  | zero => simp [run, endsWithin_zero]
  | succ n ih => simp only [run_err_succ, endsWithin_succ, ih]

/-- More fuel keeps an Ok (R121). -/
theorem run_ok_add (m : Nat) (h : run n stop s = .ok t) : run (n + m) stop s = .ok t := by
  obtain ⟨k, hk, hend⟩ := run_ok_iff.1 h
  exact run_ok_iff.2 ⟨k, by omega, hend⟩

/-- More fuel keeps an error (R121). -/
theorem run_err_add (m : Nat) (h : run n stop s = .err e t) : run (n + m) stop s = .err e t := by
  obtain ⟨k, hk, hend⟩ := run_err_iff.1 h
  exact run_err_iff.2 ⟨k, by omega, hend⟩

/-- A run that ends Ok stops on its predicate and has recorded no fault of its own (R126). -/
theorem run_ok_stop_record (h : run n stop s = .ok t) : stop t.pc = true ∧ t.faultRecord = s.faultRecord := by
  induction n generalizing s with
  | zero => simp [run] at h
  | succ n ih =>
    obtain ⟨hstep, hstop⟩ | ⟨u, hstep, -, hrest⟩ := run_ok_succ.1 h
    · exact ⟨hstop, ((bookkeepingOfTick s t).1 hstep).1⟩
    · obtain ⟨hstop, hrecord⟩ := ih hrest
      exact ⟨hstop, hrecord.trans ((bookkeepingOfTick s u).1 hstep).1⟩

end

/-- Settles O53: run_ok_iff and run_err_iff, written out. -/
theorem runStopsExactly : Obligations.RunStopsExactly := by
  refine fun n stop s => ⟨fun t => ?_, fun e t => run_err_iff⟩
  simpa only [EndsWithin, PassesOver, and_assoc] using run_ok_iff

/-- Settles O54: by run_ok_add, run_err_add and run_ne_refused. -/
theorem fuelNeverChangesAnOutcome : Obligations.FuelNeverChangesAnOutcome :=
  fun _ m _ _ _ => ⟨run_ok_add m, fun _ => run_err_add m, run_ne_refused⟩

/-- Settles O55: the predicate holds after an Ok run, and its record is the one before. -/
theorem okRunIsGoodEnd : Obligations.OkRunIsGoodEnd := by
  intro n stop s t h
  obtain ⟨hstop, hrecord⟩ := run_ok_stop_record h
  rw [GoodEnd, hrecord, and_iff_right hstop]

end Sys2Proof.Machine
end

section
/-! The tick as a walk through its phases (40_cycle.md R119, decision D17). -/

namespace Sys2Proof.Machine

/-- Where the walk comes to rest on the outcome of a tick. -/
def restOf (o : Host.Outcome State Fault Refusal) : Except Refusal Fsm :=
  match o with
  | .next t => .ok ⟨.ready, t⟩
  | .fault (.err e t) => .ok ⟨.error e, t⟩
  | .refused r => .error r

section
variable {o : Host.Outcome State Fault Refusal} {t : State} {e : MachineError}

theorem restOf_ready : restOf o = .ok ⟨.ready, t⟩ ↔ o = .next t := by
  cases o with
  | next u => simp [restOf]
  | fault f =>
    obtain ⟨e, u⟩ := f
    simp [restOf]
  | refused r => simp [restOf]

theorem restOf_error : restOf o = .ok ⟨.error e, t⟩ ↔ o = .fault (.err e t) := by
  cases o with
  | next u => simp [restOf]
  | fault f =>
    obtain ⟨e, u⟩ := f
    simp [restOf]
  | refused r => simp [restOf]

theorem atRest_of_restOf {g : Fsm} (h : restOf o = .ok g) : fsmAtRest g = true := by
  cases o with
  | next u =>
    cases h
    rfl
  | fault f =>
    obtain ⟨e, u⟩ := f
    cases h
    rfl
  | refused r => cases h

end

section
variable (n : Nat) (s : State)

/-- A walk at rest stays there. -/
theorem fsmSettle_of_atRest {f : Fsm} (h : fsmAtRest f = true) : fsmSettle n f = .ok f := by
  cases n with
  | zero => rfl
  | succ n => rw [fsmSettle, if_pos h]

/-- EXECUTE comes to rest on the outcome of exec. -/
theorem fsmSettle_execute (i : Instr) : fsmSettle (n + 1) ⟨.execute i, s⟩ = restOf (exec i s) := by
  rw [fsmSettle, if_neg (by simp [fsmAtRest]), fsmAdvance]
  dsimp only
  cases exec i s with
  | next t => exact fsmSettle_of_atRest n (f := ⟨.ready, t⟩) rfl
  | fault f =>
    obtain ⟨e, t⟩ := f
    exact fsmSettle_of_atRest n (f := ⟨.error e, t⟩) rfl
  | refused r => rfl

/-- DECODE goes on to EXECUTE, or comes to rest on its error. -/
theorem fsmSettle_decode (w : Word) :
    fsmSettle (n + 2) ⟨.decode w, s⟩ = restOf (proceed (decodeFetched w) s fun i => exec i s) := by
  rw [fsmSettle, if_neg (by simp [fsmAtRest]), fsmAdvance]
  dsimp only
  cases decodeFetched w with
  | ok i => exact fsmSettle_execute n s i
  | error e => exact fsmSettle_of_atRest (n + 1) (f := ⟨.error e, s.recordError e⟩) rfl

/-- FETCH goes on to DECODE, or comes to rest on its error. -/
theorem fsmSettle_fetch :
    fsmSettle (n + 3) ⟨.fetch, s⟩ = restOf (proceed (fetchInstr s) s fun i => exec i s) := by
  rw [fsmSettle, if_neg (by simp [fsmAtRest]), fsmAdvance, fetchInstr]
  dsimp only
  cases fetchWord s with
  | ok w => exact fsmSettle_decode n s w
  | error e => exact fsmSettle_of_atRest (n + 2) (f := ⟨.error e, s.recordError e⟩) rfl

end

/-- A tick is its fetch and decode, and then exec (R111). -/
theorem step_eq_proceed (s : State) : step s = proceed (fetchInstr s.begin) s.begin fun i => exec i s.begin := by
  rw [step]
  cases fetchInstr s.begin <;> rfl

/-- From rest, a tick request comes to rest on the outcome of the tick. -/
theorem fsmTick_eq {f : Fsm} (h : fsmAtRest f = true) : fsmTick f = restOf (step f.state) := by
  obtain ⟨phase, s⟩ := f
  have hrequest : fsmAdvance ⟨phase, s⟩ = .ok ⟨.fetch, s.begin⟩ := by
    cases phase with
    | ready => rfl
    | error e => rfl
    | fetch => cases h
    | decode w => cases h
    | execute i => cases h
  rw [fsmTick, hrequest, step_eq_proceed]
  exact fsmSettle_fetch 0 s.begin

/-- Settles O57: by fsmTick_eq, and what restOf tells of the outcome. -/
theorem phasesRefineTick : Obligations.PhasesRefineTick := by
  intro f h
  rw [fsmTick_eq h]
  exact ⟨fun _ => restOf_ready, fun _ _ => restOf_error, fun _ => atRest_of_restOf⟩

end Sys2Proof.Machine
end
